-- ==== Sys2Proof/Word.lean ====
section
/-! DEFINITION. Word.lean: the bit-vector types of the block.
A channel is 8 bits (R20), a pixel register 32 (R23), a command word 40 (R50), its header 8 (R51). -/

namespace Sys2Proof

/-- One channel, one lane, one serialised byte (R20, R24). -/
abbrev Byte := BitVec 8

/-- A 32-bit register D, S or O, and the immediate field IMM (R23, R26, R50). -/
abbrev Word := BitVec 32

/-- The header H = W[39:32] (R50, R51). -/
abbrev Header := BitVec 8

/-- The command word W, presented by the host as one parallel value (R50). -/
abbrev CommandWord := BitVec 40

end Sys2Proof
end

