-- ==== Sys2Proof/Syntax.lean ====
section
/-! DEFINITION. Syntax.lean: the pixel types and values, the 30 instructions (one constructor per row of
opcode_table.json), the seven assembler forms they are written in (R63) and the pseudo-instructions (R64). -/

namespace Sys2Proof

/-- The closed set of pixel types (R2, R20): Grayscale8, RGB8, RGBA8. -/
inductive PixelType where
  | gray | rgb | rgba
  deriving DecidableEq, Repr

/-- A Grayscale8 value: one channel (R20). -/
structure Grayscale8 where
  v : Byte
  deriving DecidableEq, Repr

/-- An RGB8 value: three channels, always opaque (R20). -/
structure RGB8 where
  r : Byte
  g : Byte
  b : Byte
  deriving DecidableEq, Repr

/-- An RGBA8 value: four channels with straight alpha (R20). -/
structure RGBA8 where
  r : Byte
  g : Byte
  b : Byte
  a : Byte
  deriving DecidableEq, Repr

/-- The register select `r` of the header (R23, R51). -/
inductive PixReg where
  | D | S
  deriving DecidableEq, Repr

/-- The constant selectors (R53). -/
inductive ConstName where
  | black | white | transparent
  deriving DecidableEq, Repr

/-- The seven entries of the constant store (R60, R71): a type and one of its constants. -/
inductive NamedConst where
  | grayBlack | grayWhite | rgbBlack | rgbWhite | rgbaBlack | rgbaWhite | rgbaTransparent
  deriving DecidableEq, Repr

/-- One constructor per row of opcode_table.json, in the table's order. The immediate of every row but LD is ignored by
the block (R55) and is no part of the instruction. -/
inductive Instr where
  | nop
  | ld (r : PixReg) (imm : Word)
  | constGrayBlack (r : PixReg)
  | constGrayWhite (r : PixReg)
  | constRgbBlack (r : PixReg)
  | constRgbWhite (r : PixReg)
  | constRgbaBlack (r : PixReg)
  | constRgbaWhite (r : PixReg)
  | constRgbaTransparent (r : PixReg)
  | descGray
  | descRgb
  | descRgba
  | rawGray (r : PixReg)
  | rawRgb (r : PixReg)
  | rawRgba (r : PixReg)
  | cvtRgbaRgb (r : PixReg)
  | cvtRgbRgba (r : PixReg)
  | cvtGrayRgb (r : PixReg)
  | cvtRgbGray (r : PixReg)
  | cvtGrayRgba (r : PixReg)
  | cvtRgbaGray (r : PixReg)
  | ovdRgbRgb
  | ovdGrayRgb
  | ovdRgbRgba
  | ovdGrayRgba
  | ovdRgbGray
  | ovdGrayGray
  | ovdRgbaRgb
  | ovdRgbaRgba
  | ovdRgbaGray
  deriving DecidableEq, Repr

/-- The seven line forms of R63, operands as written: register, source type, destination type. Not every term names an
instruction (`CVT r, t, t` does not): WellFormed.lean says which do. -/
inductive Form where
  | nop
  | ld (r : PixReg) (imm : Word)
  | desc (t : PixelType)
  | raw (r : PixReg) (t : PixelType)
  | cvt (r : PixReg) (s d : PixelType)
  | ovd (s d : PixelType)
  | const (r : PixReg) (t : PixelType) (k : ConstName)
  deriving DecidableEq, Repr

/-- The form an instruction is written in: the operands its row's name spells out (R54, R63). -/
def Instr.form : Instr → Form
  | .nop => .nop
  | .ld r imm => .ld r imm
  | .constGrayBlack r => .const r .gray .black
  | .constGrayWhite r => .const r .gray .white
  | .constRgbBlack r => .const r .rgb .black
  | .constRgbWhite r => .const r .rgb .white
  | .constRgbaBlack r => .const r .rgba .black
  | .constRgbaWhite r => .const r .rgba .white
  | .constRgbaTransparent r => .const r .rgba .transparent
  | .descGray => .desc .gray
  | .descRgb => .desc .rgb
  | .descRgba => .desc .rgba
  | .rawGray r => .raw r .gray
  | .rawRgb r => .raw r .rgb
  | .rawRgba r => .raw r .rgba
  | .cvtRgbaRgb r => .cvt r .rgba .rgb
  | .cvtRgbRgba r => .cvt r .rgb .rgba
  | .cvtGrayRgb r => .cvt r .gray .rgb
  | .cvtRgbGray r => .cvt r .rgb .gray
  | .cvtGrayRgba r => .cvt r .gray .rgba
  | .cvtRgbaGray r => .cvt r .rgba .gray
  | .ovdRgbRgb => .ovd .rgb .rgb
  | .ovdGrayRgb => .ovd .gray .rgb
  | .ovdRgbRgba => .ovd .rgb .rgba
  | .ovdGrayRgba => .ovd .gray .rgba
  | .ovdRgbGray => .ovd .rgb .gray
  | .ovdGrayGray => .ovd .gray .gray
  | .ovdRgbaRgb => .ovd .rgba .rgb
  | .ovdRgbaRgba => .ovd .rgba .rgba
  | .ovdRgbaGray => .ovd .rgba .gray

/-- The pseudo-instructions of R64. -/
inductive Pseudo where
  | ldd (imm : Word)
  | lds (imm : Word)
  | clrd (t : PixelType)
  | cvtovd (s d : PixelType)
  | ser (r : PixReg) (t : PixelType)
  deriving DecidableEq, Repr

/-- Why a header is illegal, one name per row of R61's table. The decoder answers with it; the block records none of it
(R122), and several reasons at once are not told apart (R125): the row is the operation group's. -/
inductive IllegalCause where
  | nopWithOtherBits
  | ldFields
  | descFields
  | rawFields
  | cvtPair
  | ovdFields
  | constPair
  | reservedOp
  deriving DecidableEq, Repr

end Sys2Proof
end

