-- ==== Sys2Proof/WellFormed.lean ====
section
/-! DEFINITION. WellFormed.lean: which written forms are instructions (R58, R59, R60, R63). -/

namespace Sys2Proof

/-- The (type, constant) pairs that exist: only RGBA8 has TRANSPARENT (R53, R60). -/
def constDefined : PixelType → ConstName → Bool
  | _, .black => true
  | _, .white => true
  | .rgba, .transparent => true
  | .gray, .transparent => false
  | .rgb, .transparent => false

/-- A form is well-formed when it names an instruction: the two types of CVT differ (R58), the constant of CONST exists
for its type (R60); every pair is an OVD cell (R59). -/
def Form.wf : Form → Bool
  | .nop => true
  | .ld _ _ => true
  | .desc _ => true
  | .raw _ _ => true
  | .cvt _ s d => decide (s ≠ d)
  | .ovd _ _ => true
  | .const _ t k => constDefined t k

/-- An instruction is well-formed when the form it is written in is. Every term of Instr is (Laws/Encoding.lean), since
its constructors are the rows of the opcode table. -/
def Instr.wf (i : Instr) : Bool := i.form.wf

/-- CVTOVD needs two different types (R64); the other pseudo-instructions take any operands. -/
def Pseudo.wf : Pseudo → Bool
  | .ldd _ => true
  | .lds _ => true
  | .clrd _ => true
  | .cvtovd s d => decide (s ≠ d)
  | .ser _ _ => true

end Sys2Proof
end

