-- ==== Sys2Proof/Decode.lean ====
section
/-! DEFINITION. Decode.lean: the dispatch of R56, total on every 40-bit command word, rejecting by the name of R61's row;
then the encoder (R51, R63), and the reading of an opcode-table word. -/

namespace Sys2Proof

/-! ### Fields of the command word (R50, R51) -/

/-- H = W[39:32]. -/
def headerOf (W : CommandWord) : Header := W.extractLsb' 32 8

/-- IMM = W[31:0]. -/
def immOf (W : CommandWord) : Word := W.extractLsb' 0 32

/-- op = H[7:5]. -/
def opOf (H : Header) : BitVec 3 := H.extractLsb' 5 3

/-- st = H[4:3]. -/
def stOf (H : Header) : BitVec 2 := H.extractLsb' 3 2

/-- dt = H[2:1]. -/
def dtOf (H : Header) : BitVec 2 := H.extractLsb' 1 2

/-- r = H[0]. -/
def rOf (H : Header) : BitVec 1 := H.extractLsb' 0 1

/-! ### Codes (R23, R52, R53) -/

/-- The type codes, used in st, dt and FD.TAG (R52). -/
def typeCode : PixelType → BitVec 2
  | .gray => 0#2
  | .rgb => 1#2
  | .rgba => 2#2

/-- The type a code names; code 3 is reserved (R52). -/
def typeOfCode (c : BitVec 2) : Option PixelType :=
  if c = 0#2 then some .gray
  else if c = 1#2 then some .rgb
  else if c = 2#2 then some .rgba
  else none

/-- The constant selector codes (R53). -/
def constCode : ConstName → BitVec 2
  | .black => 0#2
  | .white => 1#2
  | .transparent => 2#2

/-- The constant a selector code names; code 3 is reserved (R53). -/
def constOfCode (c : BitVec 2) : Option ConstName :=
  if c = 0#2 then some .black
  else if c = 1#2 then some .white
  else if c = 2#2 then some .transparent
  else none

/-- 0 selects D, 1 selects S (R23). -/
def regCode : PixReg → BitVec 1
  | .D => 0#1
  | .S => 1#1

/-- The register a select bit names (R23). -/
def regOfCode (c : BitVec 1) : PixReg := if c = 0#1 then .D else .S

/-! ### Decoding (R56) -/

/-- The instruction a form names: the dispatch tables of CVT (R58), OVD (R59), DESC, RAW and CONST (R60). -/
def Form.toInstr : Form → Option Instr
  | .nop => some .nop
  | .ld r imm => some (.ld r imm)
  | .desc .gray => some .descGray
  | .desc .rgb => some .descRgb
  | .desc .rgba => some .descRgba
  | .raw r .gray => some (.rawGray r)
  | .raw r .rgb => some (.rawRgb r)
  | .raw r .rgba => some (.rawRgba r)
  | .cvt _ .gray .gray => none
  | .cvt r .gray .rgb => some (.cvtGrayRgb r)
  | .cvt r .gray .rgba => some (.cvtGrayRgba r)
  | .cvt r .rgb .gray => some (.cvtRgbGray r)
  | .cvt _ .rgb .rgb => none
  | .cvt r .rgb .rgba => some (.cvtRgbRgba r)
  | .cvt r .rgba .gray => some (.cvtRgbaGray r)
  | .cvt r .rgba .rgb => some (.cvtRgbaRgb r)
  | .cvt _ .rgba .rgba => none
  | .ovd .gray .gray => some .ovdGrayGray
  | .ovd .gray .rgb => some .ovdGrayRgb
  | .ovd .gray .rgba => some .ovdGrayRgba
  | .ovd .rgb .gray => some .ovdRgbGray
  | .ovd .rgb .rgb => some .ovdRgbRgb
  | .ovd .rgb .rgba => some .ovdRgbRgba
  | .ovd .rgba .gray => some .ovdRgbaGray
  | .ovd .rgba .rgb => some .ovdRgbaRgb
  | .ovd .rgba .rgba => some .ovdRgbaRgba
  | .const r .gray .black => some (.constGrayBlack r)
  | .const r .gray .white => some (.constGrayWhite r)
  | .const _ .gray .transparent => none
  | .const r .rgb .black => some (.constRgbBlack r)
  | .const r .rgb .white => some (.constRgbWhite r)
  | .const _ .rgb .transparent => none
  | .const r .rgba .black => some (.constRgbaBlack r)
  | .const r .rgba .white => some (.constRgbaWhite r)
  | .const r .rgba .transparent => some (.constRgbaTransparent r)

/-- Answer with the instruction of a form whose codes were all defined, else reject by name. -/
def accept (cause : IllegalCause) (f : Option Form) : Except IllegalCause Instr :=
  match f.bind Form.toInstr with
  | some i => .ok i
  | none => .error cause

/-- `decode(H)` of R56, case by case. IMM is only handed on to LD: it decides nothing. -/
def decodeHeader (H : Header) (imm : Word) : Except IllegalCause Instr :=
  if opOf H = 0#3 then
    if H = 0x00#8 then .ok .nop else .error .nopWithOtherBits
  else if opOf H = 1#3 then
    if stOf H = 0#2 ∧ dtOf H = 0#2 then .ok (.ld (regOfCode (rOf H)) imm) else .error .ldFields
  else if opOf H = 2#3 then
    if dtOf H = 0#2 ∧ rOf H = 0#1 then accept .descFields ((typeOfCode (stOf H)).map Form.desc)
    else .error .descFields
  else if opOf H = 3#3 then
    if dtOf H = 0#2 then accept .rawFields ((typeOfCode (stOf H)).map (Form.raw (regOfCode (rOf H))))
    else .error .rawFields
  else if opOf H = 4#3 then
    accept .cvtPair ((typeOfCode (stOf H)).bind fun s => (typeOfCode (dtOf H)).map fun d =>
      Form.cvt (regOfCode (rOf H)) s d)
  else if opOf H = 5#3 then
    if rOf H = 0#1 then
      accept .ovdFields ((typeOfCode (stOf H)).bind fun s => (typeOfCode (dtOf H)).map fun d => Form.ovd s d)
    else .error .ovdFields
  else if opOf H = 6#3 then
    accept .constPair ((typeOfCode (stOf H)).bind fun t => (constOfCode (dtOf H)).map fun k =>
      Form.const (regOfCode (rOf H)) t k)
  else .error .reservedOp

/-- The instruction of a command word, or the name of R61's row that makes its header illegal. -/
def decode (W : CommandWord) : Except IllegalCause Instr := decodeHeader (headerOf W) (immOf W)

/-! ### Encoding (R51, R54, R63) -/

/-- The operation group of a form (R54). -/
def Form.op : Form → BitVec 3
  | .nop => 0#3
  | .ld _ _ => 1#3
  | .desc _ => 2#3
  | .raw _ _ => 3#3
  | .cvt _ _ _ => 4#3
  | .ovd _ _ => 5#3
  | .const _ _ _ => 6#3

/-- The field st; 0 where the form does not use it (R51). -/
def Form.st : Form → BitVec 2
  | .nop => 0#2
  | .ld _ _ => 0#2
  | .desc t => typeCode t
  | .raw _ t => typeCode t
  | .cvt _ s _ => typeCode s
  | .ovd s _ => typeCode s
  | .const _ t _ => typeCode t

/-- The field dt, which carries the selector k in CONST; 0 where the form does not use it (R51). -/
def Form.dt : Form → BitVec 2
  | .nop => 0#2
  | .ld _ _ => 0#2
  | .desc _ => 0#2
  | .raw _ _ => 0#2
  | .cvt _ _ d => typeCode d
  | .ovd _ d => typeCode d
  | .const _ _ k => constCode k

/-- The field r; 0 where the form does not use it (R51). -/
def Form.r : Form → BitVec 1
  | .nop => 0#1
  | .ld r _ => regCode r
  | .desc _ => 0#1
  | .raw r _ => regCode r
  | .cvt r _ _ => regCode r
  | .ovd _ _ => 0#1
  | .const r _ _ => regCode r

/-- H = (op, st, dt, r) from the most significant bit down (R51). -/
def Form.header (f : Form) : Header := f.op ++ f.st ++ f.dt ++ f.r

/-- IMM as the assembler emits it: the immediate of LD, 0 for every other form (R63). -/
def Form.imm : Form → Word
  | .ld _ imm => imm
  | .nop => 0#32
  | .desc _ => 0#32
  | .raw _ _ => 0#32
  | .cvt _ _ _ => 0#32
  | .ovd _ _ => 0#32
  | .const _ _ _ => 0#32

/-- The command word of an instruction: header in W[39:32], immediate in W[31:0] (R50). -/
def encode (i : Instr) : CommandWord := i.form.header ++ i.form.imm

/-- Whether a form uses IMM: LD alone does (R55). -/
def Form.usesImm : Form → Bool
  | .ld _ _ => true
  | .nop => false
  | .desc _ => false
  | .raw _ _ => false
  | .cvt _ _ _ => false
  | .ovd _ _ => false
  | .const _ _ _ => false

/-! ### The opcode table's words -/

/-- The command word whose low `nbits` bits are those of w and whose other bits are 0. The table numbers the 40 bits of W
as one number, bit 0 the least significant, so no byte order enters (R41, R50; log entry 9). -/
def tableWord (nbits w : Nat) : CommandWord := BitVec.ofNat 40 (w % 2 ^ nbits)

/-- The instruction the decoder reads from an opcode-table word of nbits bits. -/
def decodeTableWord (nbits w : Nat) : Option Instr :=
  match decode (tableWord nbits w) with
  | .ok i => some i
  | .error _ => none

end Sys2Proof
end

