-- ==== Sys2Proof/Config.lean ====
section
/-! DEFINITION. Config.lean: the implementation parameters of R5 that the datapath reads, at the value this hardware takes.
The two parameters R5 calls OPEN are arguments, not constants: LATENCY (Machine/Observe.lean) and the number of instances
(Machine/Instances.lean). The three values the spec suggests keeping apart (K, the alpha accumulation, the RGB-to-grey
replacement) are definitions of their own in Machine/Moves.lean and Machine/Overdraw.lean. -/

namespace Sys2Proof.Config

/-- The name of the command set (R1, D1). -/
def commandSet : String := "PTE-1"

/-- BIT_DEPTH(t), 8 for all three types (R5, R80). -/
def bitDepth : BitVec 4 := 8#4

/-- The blend divisor (R5, R9). -/
def blendDivisor : Nat := 255

/-- The luminance divisor (R5, R8). -/
def luminanceDivisor : Nat := 3

/-- The weight of an opaque source, and the alpha of an opaque pixel (R5, R9, R100). -/
def opaqueWeight : Byte := 255#8

end Sys2Proof.Config
end

