-- ==== Sys2Proof/Machine/Arith.lean ====
section
/-! DEFINITION. Machine/Arith.lean: the five arithmetic primitives (R6 to R12), on unbounded integers narrowed once at the
end (D19; log entry 14), and the divider-free divisions of R13. -/

namespace Sys2Proof.Machine

/-- Division truncating toward zero (R6). -/
def tdiv (n : Int) (m : Nat) : Int := if 0 ≤ n then n / (m : Int) else -((-n) / (m : Int))

/-- Floor division of a non-negative integer (R7). -/
def fdiv (n m : Nat) : Nat := n / m

/-- The luminance: unweighted truncating average, the sum formed without wrap-around (R8). -/
def lum8 (r g b : Byte) : Byte :=
  BitVec.ofNat 8 (fdiv (r.toNat + g.toNat + b.toNat) Config.luminanceDivisor)

/-- The per-channel blend: difference, product, truncating division, sum, in this order (R9). -/
def blend8 (d s w : Byte) : Byte :=
  let diff : Int := (s.toNat : Int) - (d.toNat : Int)
  let prod : Int := diff * (w.toNat : Int)
  let q : Int := tdiv prod Config.blendDivisor
  BitVec.ofInt 8 ((d.toNat : Int) + q)

/-- Saturation at 255 (R11). -/
def sat8 (n : Nat) : Byte := if n > 255 then 255#8 else BitVec.ofNat 8 n

/-- R13's shift-and-add form of division by 255, for n up to 65025. -/
def fdiv255ShiftAdd (n : Nat) : Nat := (n + 1 + (n >>> 8)) >>> 8

/-- R13's multiply-and-shift form of division by 255, for n up to 65025. -/
def fdiv255MulShift (n : Nat) : Nat := (n * 0x8081) >>> 23

/-- R13's first multiply-and-shift form of division by 3, for n up to 765. -/
def fdiv3MulShift11 (n : Nat) : Nat := (n * 683) >>> 11

/-- R13's second multiply-and-shift form of division by 3, for n up to 765. -/
def fdiv3MulShift17 (n : Nat) : Nat := (n * 0xAAAB) >>> 17

/-- The shorter constant R13 calls wrong in this range. -/
def fdiv3MulShift9 (n : Nat) : Nat := (n * 171) >>> 9

/-- R13's `tdiv(prod, 255)` from a division of the magnitude, the sign restored. -/
def tdiv255ShiftAdd (prod : Int) : Int :=
  if 0 ≤ prod then (fdiv255ShiftAdd prod.natAbs : Int) else -(fdiv255ShiftAdd prod.natAbs : Int)

end Sys2Proof.Machine
end

