-- ==== Sys2Proof/Machine/State.lean ====
section
/-! DEFINITION. Machine/State.lean: everything the spec gives the block (R23, R26, R27, R28, and R31, R32: nothing else),
the input the host presents, and the state after reset (R36). -/

namespace Sys2Proof.Machine

/-- What the host does to the block (R34, R140): it presents a command word, or it applies reset, alone (`reset none`)
or at the same moment as a command word, which is then lost (`reset (some W)`). -/
inductive HostEvent where
  | command (W : CommandWord)
  | reset (lost : Option CommandWord)
  deriving DecidableEq, Repr

/-- The state of one instance of the block. There is no memory (R40; log entry 10). -/
structure State where
  /-- x[0], the destination cell (R23) -/
  D : Word
  /-- x[1], the source operand (R23) -/
  S : Word
  /-- the raw-byte output (R26) -/
  O : Word
  /-- the number of valid bytes in O (R26) -/
  OLEN : BitVec 3
  /-- the format descriptor output (R27) -/
  FD : BitVec 16
  /-- the status register; bit 0 is ILL (R28) -/
  ST : BitVec 1
  /-- the host's events still to come, oldest first: the model's input (R33, R44), no register of the block -/
  pending : List HostEvent
  deriving DecidableEq, Repr

/-- Nothing stops the block (R62, R121, R150, R151), so no step ends in a fault and there is no reason to name. The one
exceptional event of the spec, the illegal command, is a next state (R120; log entry 8). Safe: the type is empty. -/
inductive Fault where
  deriving DecidableEq, Repr

/-- Why a step has no meaning. -/
inductive Refusal where
  /-- raised by an arm of exec that has no meaning yet, and by nothing else; every arm has one, so no step raises it.
  Safe: it could only stop a run early. -/
  | notModelled (mnemonic : String)
  deriving DecidableEq, Repr

/-- The state after reset: every register 0 (R36, R140; log entry 15). No host event is waiting (log entry 1). -/
def State.reset : State where
  D := 0x00000000#32
  S := 0x00000000#32
  O := 0x00000000#32
  OLEN := 0#3
  FD := 0x0000#16
  ST := 0#1
  pending := []

end Sys2Proof.Machine
end

