-- ==== Sys2Proof/Machine/Flags.lean ====
section
/-! DEFINITION. Machine/Flags.lean: the only flag of the block, ST.ILL (R28, R30), and the fields of the descriptor
register FD (R27). No instruction computes a flag (R30, R121). -/

namespace Sys2Proof.Machine

/-- ST.ILL, bit 0 of ST (R28). -/
def State.ill (s : State) : Bool := s.ST.getLsbD 0

/-- FD.TAG = FD[1:0] (R27). -/
def fdTag (fd : BitVec 16) : BitVec 2 := fd.extractLsb' 0 2

/-- FD.DEPTH = FD[7:4] (R27). -/
def fdDepth (fd : BitVec 16) : BitVec 4 := fd.extractLsb' 4 4

/-- FD.LEN = FD[10:8] (R27). -/
def fdLen (fd : BitVec 16) : BitVec 3 := fd.extractLsb' 8 3

/-- FD[3:2] and FD[15:11], which are always 0 (R27). -/
def fdReserved (fd : BitVec 16) : BitVec 7 := fd.extractLsb' 11 5 ++ fd.extractLsb' 2 2

/-- Set ST.ILL; nothing but reset clears it (R28). -/
def State.setIll (s : State) : State := { s with ST := 1#1 }

end Sys2Proof.Machine
end

