-- ==== Sys2Proof/Machine/Operands.lean ====
section
/-! DEFINITION. Machine/Operands.lean: how a 32-bit register is read and written as a pixel (R24, R25), and the
type-indexed facts LEN, MASK (00_scope.md section 5, R80). -/

namespace Sys2Proof.Machine

/-- `lane(p, i) = p[8i+7:8i]` (R24). -/
def lane (p : Word) (i : Nat) : Byte := p.extractLsb' (8 * i) 8

/-- `pack(l0)`: every lane not named is 0 (00_scope.md section 5). -/
def pack1 (l0 : Byte) : Word := 0#24 ++ l0

/-- `pack(l0,l1,l2)`. -/
def pack3 (l0 l1 l2 : Byte) : Word := 0#8 ++ l2 ++ l1 ++ l0

/-- `pack(l0,l1,l2,l3)`. -/
def pack4 (l0 l1 l2 l3 : Byte) : Word := l3 ++ l2 ++ l1 ++ l0

/-- LEN(t), the serialised byte length (R5, R80). -/
def lenOf : PixelType → Nat
  | .gray => 1
  | .rgb => 3
  | .rgba => 4

/-- MASK(t): the lanes a read as type t sees (00_scope.md section 5). -/
def maskOf : PixelType → Word
  | .gray => 0x000000FF#32
  | .rgb => 0x00FFFFFF#32
  | .rgba => 0xFFFFFFFF#32

/-- A register read as GRAY: lanes 1 to 3 are ignored (R24). -/
def asGray (p : Word) : Grayscale8 := ⟨lane p 0⟩

/-- A register read as RGB: lane 3 is ignored (R24). -/
def asRgb (p : Word) : RGB8 := ⟨lane p 0, lane p 1, lane p 2⟩

/-- A register read as RGBA (R24). -/
def asRgba (p : Word) : RGBA8 := ⟨lane p 0, lane p 1, lane p 2, lane p 3⟩

/-- The canonical register value of a Grayscale8 pixel (R25). -/
def ofGray (p : Grayscale8) : Word := pack1 p.v

/-- The canonical register value of an RGB8 pixel (R25). -/
def ofRgb (p : RGB8) : Word := pack3 p.r p.g p.b

/-- The canonical register value of an RGBA8 pixel (R25). -/
def ofRgba (p : RGBA8) : Word := pack4 p.r p.g p.b p.a

/-- The serialisation of a register read as type t: byte j is lane j, for j below LEN(t) (R41). -/
def bytesOf (t : PixelType) (p : Word) : List Byte := (List.range (lenOf t)).map (lane p)

/-- The immediate that reinterprets a byte group as a pixel: byte 0 in IMM[7:0], bytes not given are 0 (R42). -/
def immOfBytes : List Byte → Word
  | [] => 0#32
  | b :: bs => (immOfBytes bs <<< 8) ||| b.setWidth 32

end Sys2Proof.Machine
end

