-- ==== Sys2Proof/Machine/Ops.lean ====
section
/-! DEFINITION. Machine/Ops.lean: the named operations over the registers. Every write is of the whole register (R45). -/

namespace Sys2Proof.Machine

/-- `x[r]` (R23). -/
def readReg (r : PixReg) (s : State) : Word :=
  match r with
  | .D => s.D
  | .S => s.S

/-- `x[r] <- v`, all 32 bits (R23, R45). -/
def writeReg (r : PixReg) (v : Word) (s : State) : State :=
  match r with
  | .D => { s with D := v }
  | .S => { s with S := v }

/-- `O <- v; OLEN <- n` together (R26, R45). -/
def writeRaw (v : Word) (n : Nat) (s : State) : State := { s with O := v, OLEN := BitVec.ofNat 3 n }

/-- `FD <- v` (R27, R45). -/
def writeDesc (v : BitVec 16) (s : State) : State := { s with FD := v }

/-- `raise Illegal(H)`: the block's one exceptional event. It sets ST.ILL and does nothing else; no control is
transferred, nothing is saved, the header is not recorded, and there is no return from it (R120, R122, R126). -/
def raiseIllegal (s : State) : State := s.setIll

/-- The reset event: every register at its reset value (R140). The host's later events are not the block's, so they
stay (log entry 4). -/
def applyReset (s : State) : State := { State.reset with pending := s.pending }

/-- The first OLEN bytes of O, first to last: what the host appends to its stream (R26, R46). -/
def rawBytes (s : State) : List Byte := (List.range s.OLEN.toNat).map (lane s.O)

end Sys2Proof.Machine
end

