-- ==== Sys2Proof/Machine/Convert.lean ====
section
/-! DEFINITION. Machine/Convert.lean: the color_converter, six pure functions on pixel values (R90), and the six CVT
instructions, each in place on a selected register (R91 to R96). -/

namespace Sys2Proof.Machine

/-- Drop alpha, keep r, g, b (R91). -/
def rgbaToRgb (p : RGBA8) : RGB8 := ⟨p.r, p.g, p.b⟩

/-- Keep r, g, b; a = 255 (R92). -/
def rgbToRgba (p : RGB8) : RGBA8 := ⟨p.r, p.g, p.b, Config.opaqueWeight⟩

/-- r = g = b = the single channel (R93). -/
def grayToRgb (p : Grayscale8) : RGB8 := ⟨p.v, p.v, p.v⟩

/-- The unweighted truncating average (R94). -/
def rgbToGray (p : RGB8) : Grayscale8 := ⟨lum8 p.r p.g p.b⟩

/-- r = g = b = the single channel; a = 255 (R95). -/
def grayToRgba (p : Grayscale8) : RGBA8 := ⟨p.v, p.v, p.v, Config.opaqueWeight⟩

/-- RGBA8 to RGB8, then RGB8 to Grayscale8: alpha is discarded outright (R96). -/
def rgbaToGray (p : RGBA8) : Grayscale8 := rgbToGray (rgbaToRgb p)

/-- `x[r] <- f(x[r])`: a conversion in place (R90). -/
def convertReg (f : Word → Word) (r : PixReg) (s : State) : State := writeReg r (f (readReg r s)) s

/-- CVT r, RGBA, RGB (R91). -/
def execCvtRgbaRgb (r : PixReg) (s : State) : Host.Outcome State Fault Refusal :=
  .next (convertReg (fun p => ofRgb (rgbaToRgb (asRgba p))) r s)

/-- CVT r, RGB, RGBA (R92). -/
def execCvtRgbRgba (r : PixReg) (s : State) : Host.Outcome State Fault Refusal :=
  .next (convertReg (fun p => ofRgba (rgbToRgba (asRgb p))) r s)

/-- CVT r, GRAY, RGB (R93). -/
def execCvtGrayRgb (r : PixReg) (s : State) : Host.Outcome State Fault Refusal :=
  .next (convertReg (fun p => ofRgb (grayToRgb (asGray p))) r s)

/-- CVT r, RGB, GRAY (R94). -/
def execCvtRgbGray (r : PixReg) (s : State) : Host.Outcome State Fault Refusal :=
  .next (convertReg (fun p => ofGray (rgbToGray (asRgb p))) r s)

/-- CVT r, GRAY, RGBA (R95). -/
def execCvtGrayRgba (r : PixReg) (s : State) : Host.Outcome State Fault Refusal :=
  .next (convertReg (fun p => ofRgba (grayToRgba (asGray p))) r s)

/-- CVT r, RGBA, GRAY (R96). -/
def execCvtRgbaGray (r : PixReg) (s : State) : Host.Outcome State Fault Refusal :=
  .next (convertReg (fun p => ofGray (rgbaToGray (asRgba p))) r s)

end Sys2Proof.Machine
end

