-- ==== Sys2Proof/Machine/Descriptor.lean ====
section
/-! DEFINITION. Machine/Descriptor.lean: the format descriptor capability, DESC and RAW (R80 to R87). -/

namespace Sys2Proof.Machine

/-- The packed triple of a type: FD.LEN = LEN(t), FD.DEPTH = 8, FD.TAG = t (R27, R80). -/
def descriptor (t : PixelType) : BitVec 16 :=
  0#5 ++ BitVec.ofNat 3 (lenOf t) ++ Config.bitDepth ++ 0#2 ++ typeCode t

/-- `FD <- descriptor of t`. -/
def latchDescriptor (t : PixelType) (s : State) : State := writeDesc (descriptor t) s

/-- `O <- x[r] & MASK(t); OLEN <- LEN(t)` (41_format_descriptor.md section 3). -/
def serialise (r : PixReg) (t : PixelType) (s : State) : State :=
  writeRaw (readReg r s &&& maskOf t) (lenOf t) s

/-- DESC GRAY (R81). -/
def execDescGray (s : State) : Host.Outcome State Fault Refusal := .next (latchDescriptor .gray s)

/-- DESC RGB (R82). -/
def execDescRgb (s : State) : Host.Outcome State Fault Refusal := .next (latchDescriptor .rgb s)

/-- DESC RGBA (R83). -/
def execDescRgba (s : State) : Host.Outcome State Fault Refusal := .next (latchDescriptor .rgba s)

/-- RAW r, GRAY (R84). -/
def execRawGray (r : PixReg) (s : State) : Host.Outcome State Fault Refusal := .next (serialise r .gray s)

/-- RAW r, RGB (R85). -/
def execRawRgb (r : PixReg) (s : State) : Host.Outcome State Fault Refusal := .next (serialise r .rgb s)

/-- RAW r, RGBA (R86). -/
def execRawRgba (r : PixReg) (s : State) : Host.Outcome State Fault Refusal := .next (serialise r .rgba s)

end Sys2Proof.Machine
end

