-- ==== Sys2Proof/Machine/Moves.lean ====
section
/-! DEFINITION. Machine/Moves.lean: NOP, LD and the seven CONST instructions (R70 to R79). -/

namespace Sys2Proof.Machine

/-- The constant store K(t, k), a fixed table (R71). The names are the source's; of the values only the alpha of
TRANSPARENT follows from it (log entry 5), so the table is a definition of its own. -/
def constStore : NamedConst → Word
  | .grayBlack => 0x00000000#32
  | .grayWhite => 0x000000FF#32
  | .rgbBlack => 0x00000000#32
  | .rgbWhite => 0x00FFFFFF#32
  | .rgbaBlack => 0xFF000000#32
  | .rgbaWhite => 0xFFFFFFFF#32
  | .rgbaTransparent => 0x00000000#32

/-- `x[r] <- K(t, k)` (40_moves_and_constants.md section 4). -/
def loadConst (r : PixReg) (c : NamedConst) (s : State) : State := writeReg r (constStore c) s

/-- NOP (R70). -/
def execNop (s : State) : Host.Outcome State Fault Refusal := .next s

/-- LD r, #imm (R72): all 32 bits verbatim. -/
def execLd (r : PixReg) (imm : Word) (s : State) : Host.Outcome State Fault Refusal := .next (writeReg r imm s)

/-- CONST r, GRAY, BLACK (R73). -/
def execConstGrayBlack (r : PixReg) (s : State) : Host.Outcome State Fault Refusal :=
  .next (loadConst r .grayBlack s)

/-- CONST r, GRAY, WHITE (R74). -/
def execConstGrayWhite (r : PixReg) (s : State) : Host.Outcome State Fault Refusal :=
  .next (loadConst r .grayWhite s)

/-- CONST r, RGB, BLACK (R75). -/
def execConstRgbBlack (r : PixReg) (s : State) : Host.Outcome State Fault Refusal :=
  .next (loadConst r .rgbBlack s)

/-- CONST r, RGB, WHITE (R76). -/
def execConstRgbWhite (r : PixReg) (s : State) : Host.Outcome State Fault Refusal :=
  .next (loadConst r .rgbWhite s)

/-- CONST r, RGBA, BLACK (R77). -/
def execConstRgbaBlack (r : PixReg) (s : State) : Host.Outcome State Fault Refusal :=
  .next (loadConst r .rgbaBlack s)

/-- CONST r, RGBA, WHITE (R78). -/
def execConstRgbaWhite (r : PixReg) (s : State) : Host.Outcome State Fault Refusal :=
  .next (loadConst r .rgbaWhite s)

/-- CONST r, RGBA, TRANSPARENT (R79). -/
def execConstRgbaTransparent (r : PixReg) (s : State) : Host.Outcome State Fault Refusal :=
  .next (loadConst r .rgbaTransparent s)

end Sys2Proof.Machine
end

