-- ==== Sys2Proof/Machine/Overdraw.lean ====
section
/-! DEFINITION. Machine/Overdraw.lean: the alpha_blender, the nine OVD instructions (R100 to R112). R101 gives the nine
cells as one function; each instruction is that function at its pair of types. Two values are kept apart as
definitions of their own, as the spec advises: the alpha of RGBA8 onto RGBA8 (D18, U1; log entry 6) and what an RGB8
source writes to a Grayscale8 destination (D11, U5; log entry 7). -/

namespace Sys2Proof.Machine

/-- The source colour and weight of R101. -/
structure Ink where
  r : Byte
  g : Byte
  b : Byte
  w : Byte
  deriving DecidableEq, Repr

/-- S read as type s: an opaque source has weight 255, an RGBA8 source its own alpha (R100, R101). -/
def inkOf (s : PixelType) (S : Word) : Ink :=
  match s with
  | .gray => ⟨lane S 0, lane S 0, lane S 0, Config.opaqueWeight⟩
  | .rgb => ⟨lane S 0, lane S 1, lane S 2, Config.opaqueWeight⟩
  | .rgba => ⟨lane S 0, lane S 1, lane S 2, lane S 3⟩

/-- What an RGB8 source puts in the single channel of a Grayscale8 destination: the luminance (R108, D11). -/
def rgbToGrayReplace (r g b : Byte) : Byte := lum8 r g b

/-- The grey value of the source on a Grayscale8 destination (R101). -/
def greyOf (s : PixelType) (k : Ink) : Byte :=
  match s with
  | .gray => lum8 k.r k.g k.b
  | .rgb => rgbToGrayReplace k.r k.g k.b
  | .rgba => lum8 k.r k.g k.b

/-- The new alpha of RGBA8 onto RGBA8, verbatim: the source alpha doubled and saturated; the old destination alpha is
read by nothing (R111, D18). -/
def alphaAcc (sa _da : Byte) : Byte := sat8 (sa.toNat + sa.toNat)

/-- The new alpha of an RGBA8 destination: 255 under an opaque source (R101). -/
def newAlpha (s : PixelType) (k : Ink) (da : Byte) : Byte :=
  match s with
  | .gray => Config.opaqueWeight
  | .rgb => Config.opaqueWeight
  | .rgba => alphaAcc k.w da

/-- The new D of `OVD s, d`, canonical for d (R101). -/
def overdraw (s d : PixelType) (S D : Word) : Word :=
  let k := inkOf s S
  match d with
  | .gray => pack1 (blend8 (lane D 0) (greyOf s k) k.w)
  | .rgb => pack3 (blend8 (lane D 0) k.r k.w) (blend8 (lane D 1) k.g k.w) (blend8 (lane D 2) k.b k.w)
  | .rgba =>
    pack4 (blend8 (lane D 0) k.r k.w) (blend8 (lane D 1) k.g k.w) (blend8 (lane D 2) k.b k.w)
      (newAlpha s k (lane D 3))

/-- `D <- overdraw of S onto D`: S is read, D read and written, nothing else touched (R100). -/
def overdrawD (s d : PixelType) (st : State) : State := writeReg .D (overdraw s d st.S st.D) st

/-- OVD RGB, RGB (R104). -/
def execOvdRgbRgb (s : State) : Host.Outcome State Fault Refusal := .next (overdrawD .rgb .rgb s)

/-- OVD GRAY, RGB (R105). -/
def execOvdGrayRgb (s : State) : Host.Outcome State Fault Refusal := .next (overdrawD .gray .rgb s)

/-- OVD RGB, RGBA (R106). -/
def execOvdRgbRgba (s : State) : Host.Outcome State Fault Refusal := .next (overdrawD .rgb .rgba s)

/-- OVD GRAY, RGBA (R107). -/
def execOvdGrayRgba (s : State) : Host.Outcome State Fault Refusal := .next (overdrawD .gray .rgba s)

/-- OVD RGB, GRAY (R108). -/
def execOvdRgbGray (s : State) : Host.Outcome State Fault Refusal := .next (overdrawD .rgb .gray s)

/-- OVD GRAY, GRAY (R109). -/
def execOvdGrayGray (s : State) : Host.Outcome State Fault Refusal := .next (overdrawD .gray .gray s)

/-- OVD RGBA, RGB (R110). -/
def execOvdRgbaRgb (s : State) : Host.Outcome State Fault Refusal := .next (overdrawD .rgba .rgb s)

/-- OVD RGBA, RGBA (R111). -/
def execOvdRgbaRgba (s : State) : Host.Outcome State Fault Refusal := .next (overdrawD .rgba .rgba s)

/-- OVD RGBA, GRAY (R112). -/
def execOvdRgbaGray (s : State) : Host.Outcome State Fault Refusal := .next (overdrawD .rgba .gray s)

end Sys2Proof.Machine
end

