-- ==== Sys2Proof/Machine/Dispatch.lean ====
section
/-! DEFINITION. Machine/Dispatch.lean: one arm per constructor of Instr, in the opcode table's order. -/

namespace Sys2Proof.Machine

def exec (i : Instr) (s : State) : Host.Outcome State Fault Refusal :=
  match i with
  | .nop => Sys2Proof.Machine.execNop s
  | .ld r imm => Sys2Proof.Machine.execLd r imm s
  | .constGrayBlack r => Sys2Proof.Machine.execConstGrayBlack r s
  | .constGrayWhite r => Sys2Proof.Machine.execConstGrayWhite r s
  | .constRgbBlack r => Sys2Proof.Machine.execConstRgbBlack r s
  | .constRgbWhite r => Sys2Proof.Machine.execConstRgbWhite r s
  | .constRgbaBlack r => Sys2Proof.Machine.execConstRgbaBlack r s
  | .constRgbaWhite r => Sys2Proof.Machine.execConstRgbaWhite r s
  | .constRgbaTransparent r => Sys2Proof.Machine.execConstRgbaTransparent r s
  | .descGray => Sys2Proof.Machine.execDescGray s
  | .descRgb => Sys2Proof.Machine.execDescRgb s
  | .descRgba => Sys2Proof.Machine.execDescRgba s
  | .rawGray r => Sys2Proof.Machine.execRawGray r s
  | .rawRgb r => Sys2Proof.Machine.execRawRgb r s
  | .rawRgba r => Sys2Proof.Machine.execRawRgba r s
  | .cvtRgbaRgb r => Sys2Proof.Machine.execCvtRgbaRgb r s
  | .cvtRgbRgba r => Sys2Proof.Machine.execCvtRgbRgba r s
  | .cvtGrayRgb r => Sys2Proof.Machine.execCvtGrayRgb r s
  | .cvtRgbGray r => Sys2Proof.Machine.execCvtRgbGray r s
  | .cvtGrayRgba r => Sys2Proof.Machine.execCvtGrayRgba r s
  | .cvtRgbaGray r => Sys2Proof.Machine.execCvtRgbaGray r s
  | .ovdRgbRgb => Sys2Proof.Machine.execOvdRgbRgb s
  | .ovdGrayRgb => Sys2Proof.Machine.execOvdGrayRgb s
  | .ovdRgbRgba => Sys2Proof.Machine.execOvdRgbRgba s
  | .ovdGrayRgba => Sys2Proof.Machine.execOvdGrayRgba s
  | .ovdRgbGray => Sys2Proof.Machine.execOvdRgbGray s
  | .ovdGrayGray => Sys2Proof.Machine.execOvdGrayGray s
  | .ovdRgbaRgb => Sys2Proof.Machine.execOvdRgbaRgb s
  | .ovdRgbaRgba => Sys2Proof.Machine.execOvdRgbaRgba s
  | .ovdRgbaGray => Sys2Proof.Machine.execOvdRgbaGray s

end Sys2Proof.Machine
end

