-- ==== Sys2Proof/Machine/Present.lean ====
section
/-! DEFINITION. Machine/Present.lean: what one host event does to the block (R44, R120, R140), and taking the next
event from the input. Step.lean only calls it. -/

namespace Sys2Proof.Machine

/-- A command word presented: the decoded instruction, or the illegal command (R56, R120). -/
def presentWord (W : CommandWord) (s : State) : Host.Outcome State Fault Refusal :=
  match decode W with
  | .ok i => exec i s
  | .error _ => .next (raiseIllegal s)

/-- One host event: reset wins over a command word presented at the same moment, which is lost (R125, R140). -/
def present (e : HostEvent) (s : State) : Host.Outcome State Fault Refusal :=
  match e with
  | .command W => presentWord W s
  | .reset _ => .next (applyReset s)

/-- Take the oldest waiting event and apply it completely (R44). With none waiting the block holds its registers and
does nothing (R131; log entry 2). -/
def takeEvent (s : State) : Host.Outcome State Fault Refusal :=
  match s.pending with
  | [] => .next s
  | e :: rest => present e { s with pending := rest }

/-- The host presents W as its very next event, before those it was going to give (log entry 3). -/
def presentNext (W : CommandWord) (s : State) : State := { s with pending := .command W :: s.pending }

/-- The host is going to present these command words, in this order, and nothing before or after them (R150). -/
def presentAll (ws : List CommandWord) (s : State) : State := { s with pending := ws.map HostEvent.command }

end Sys2Proof.Machine
end

