-- ==== Sys2Proof/Machine/Step.lean ====
section
/-! DEFINITION. Machine/Step.lean: one step of the machine, and where a command word from outside is placed. -/

namespace Sys2Proof.Machine

/-- One step: the next host event takes its whole effect (R44). -/
def step (s : State) : Host.Outcome State Fault Refusal := takeEvent s

/-- The opcode-table word placed where step takes its next command: at the head of the host's events. -/
def State.withFetchWord (s : State) (nbits w : Nat) : State := presentNext (tableWord nbits w) s

end Sys2Proof.Machine
end

