-- ==== Sys2Proof/Machine/Pseudo.lean ====
section
/-! DEFINITION. Machine/Pseudo.lean: the pseudo-instructions of R64 as the commands they abbreviate, and running a list
of instructions. -/

namespace Sys2Proof.Machine

/-- The forms a pseudo-instruction stands for, in order (R64). -/
def Pseudo.forms : Pseudo → List Form
  | .ldd imm => [.ld .D imm]
  | .lds imm => [.ld .S imm]
  | .clrd t => [.const .D t .black]
  | .cvtovd s d => [.cvt .S s d, .ovd d d]
  | .ser r t => [.desc t, .raw r t]

/-- The instructions of a list of forms; none when one of them names no instruction. -/
def formsInstrs : List Form → Option (List Instr)
  | [] => some []
  | f :: fs =>
    match f.toInstr, formsInstrs fs with
    | some i, some is => some (i :: is)
    | _, _ => none

/-- The expansion of a pseudo-instruction; `CVTOVD t, t` has none (R64). -/
def Pseudo.expand (p : Pseudo) : Option (List Instr) := formsInstrs (Pseudo.forms p)

/-- Run instructions one after another (R44). -/
def execEach : List Instr → State → Host.Outcome State Fault Refusal
  | [], s => .next s
  | i :: is, s =>
    match exec i s with
    | .next t => execEach is t
    | .fault f => .fault f
    | .refused r => .refused r

end Sys2Proof.Machine
end

