-- ==== Sys2Proof/Machine/Assembler.lean ====
section
/-! DEFINITION. Machine/Assembler.lean: the assembler syntax of R63 and R64, from text to command words, and the
ten-digit writing of a command word. No part of the block: exec and step do not read it. What R63 does not fix (blanks,
digit case, the number after `.WORD`) is log entry 13. -/

namespace Sys2Proof.Machine

/-- The pieces of a line. -/
inductive Token where
  | word (cs : List Char)
  | comma
  | hash
  | lbrace
  | rbrace
  deriving DecidableEq, Repr

/-- Close the word read so far (its characters are held last first). -/
def flushWord (acc : List Char) (ts : List Token) : List Token :=
  match acc with
  | [] => ts
  | c :: cs => .word (c :: cs).reverse :: ts

/-- Cut a line into tokens; `;` starts a comment (R63). Codes 123 and 125 are the braces of the lane form. -/
def tokenise : List Char → List Char → List Token
  | [], acc => flushWord acc []
  | c :: cs, acc =>
    if c = ';' then flushWord acc []
    else if c = ' ' ∨ c = '\t' ∨ c = '\r' then flushWord acc (tokenise cs [])
    else if c = ',' then flushWord acc (.comma :: tokenise cs [])
    else if c = '#' then flushWord acc (.hash :: tokenise cs [])
    else if c.toNat = 123 then flushWord acc (.lbrace :: tokenise cs [])
    else if c.toNat = 125 then flushWord acc (.rbrace :: tokenise cs [])
    else tokenise cs (c :: acc)

/-- The value of a digit character. -/
def digitOf (c : Char) : Option Nat :=
  let n := c.toNat
  if 48 ≤ n ∧ n ≤ 57 then some (n - 48)
  else if 65 ≤ n ∧ n ≤ 70 then some (n - 55)
  else if 97 ≤ n ∧ n ≤ 102 then some (n - 87)
  else none

/-- Read digits of a base onto a value. -/
def digitsFrom (base : Nat) : List Char → Nat → Option Nat
  | [], n => some n
  | c :: cs, n =>
    match digitOf c with
    | some d => if d < base then digitsFrom base cs (base * n + d) else none
    | none => none

/-- A number: `0x` and hexadecimal digits, or decimal digits (00_scope.md section 5); below 2^bits. -/
def numberOf (bits : Nat) (cs : List Char) : Option Nat :=
  let value :=
    match cs with
    | [] => none
    | ['0', 'x'] => none
    | '0' :: 'x' :: ds => digitsFrom 16 ds 0
    | ds => digitsFrom 10 ds 0
  value.bind fun n => if n < 2 ^ bits then some n else none

/-- A lane of the `pack` form. -/
def laneOf (cs : List Char) : Option Byte := (numberOf 8 cs).map (BitVec.ofNat 8)

/-- `#imm32`, or the lane forms, which mean `pack(...)` (R63). -/
def immediateOf : List Token → Option Word
  | [.hash, .word n] => (numberOf 32 n).map (BitVec.ofNat 32)
  | [.hash, .lbrace, .word a, .rbrace] => (laneOf a).map pack1
  | [.hash, .lbrace, .word a, .comma, .word b, .comma, .word c, .rbrace] =>
    match laneOf a, laneOf b, laneOf c with
    | some a, some b, some c => some (pack3 a b c)
    | _, _, _ => none
  | [.hash, .lbrace, .word a, .comma, .word b, .comma, .word c, .comma, .word d, .rbrace] =>
    match laneOf a, laneOf b, laneOf c, laneOf d with
    | some a, some b, some c, some d => some (pack4 a b c d)
    | _, _, _, _ => none
  | _ => none

/-- D or S (R63). -/
def regName (cs : List Char) : Option PixReg :=
  if cs = "D".toList then some .D else if cs = "S".toList then some .S else none

/-- GRAY, RGB or RGBA (R63). -/
def typeName (cs : List Char) : Option PixelType :=
  if cs = "GRAY".toList then some .gray
  else if cs = "RGB".toList then some .rgb
  else if cs = "RGBA".toList then some .rgba
  else none

/-- BLACK, WHITE or TRANSPARENT (R63). -/
def constName (cs : List Char) : Option ConstName :=
  if cs = "BLACK".toList then some .black
  else if cs = "WHITE".toList then some .white
  else if cs = "TRANSPARENT".toList then some .transparent
  else none

/-- Operands `t`. -/
def typeOperand : List Token → Option PixelType
  | [.word t] => typeName t
  | _ => none

/-- Operands `s, d`. -/
def pairOperands : List Token → Option (PixelType × PixelType)
  | [.word s, .comma, .word d] => (typeName s).bind fun s => (typeName d).map fun d => (s, d)
  | _ => none

/-- Operands that begin with a register: the register, then the rest after the comma. -/
def regOperand : List Token → Option (PixReg × List Token)
  | .word r :: .comma :: rest => (regName r).map fun r => (r, rest)
  | _ => none

/-- Operands `r, t, k` of CONST, after the register. -/
def constOperands : List Token → Option (PixelType × ConstName)
  | [.word t, .comma, .word k] => (typeName t).bind fun t => (constName k).map fun k => (t, k)
  | _ => none

/-- The forms a mnemonic with its operands stands for: R63's table, then R64's. -/
def formsOf (m : List Char) (ops : List Token) : Option (List Form) :=
  if m = "NOP".toList then (if ops = [] then some [.nop] else none)
  else if m = "LD".toList then
    (regOperand ops).bind fun (r, rest) => (immediateOf rest).map fun v => [.ld r v]
  else if m = "DESC".toList then (typeOperand ops).map fun t => [.desc t]
  else if m = "RAW".toList then
    (regOperand ops).bind fun (r, rest) => (typeOperand rest).map fun t => [.raw r t]
  else if m = "CVT".toList then
    (regOperand ops).bind fun (r, rest) => (pairOperands rest).map fun (s, d) => [.cvt r s d]
  else if m = "OVD".toList then (pairOperands ops).map fun (s, d) => [.ovd s d]
  else if m = "CONST".toList then
    (regOperand ops).bind fun (r, rest) => (constOperands rest).map fun (t, k) => [.const r t k]
  else if m = "LDD".toList then (immediateOf ops).map fun v => Pseudo.forms (.ldd v)
  else if m = "LDS".toList then (immediateOf ops).map fun v => Pseudo.forms (.lds v)
  else if m = "CLRD".toList then (typeOperand ops).map fun t => Pseudo.forms (.clrd t)
  else if m = "CVTOVD".toList then (pairOperands ops).map fun (s, d) => Pseudo.forms (.cvtovd s d)
  else if m = "SER".toList then
    (regOperand ops).bind fun (r, rest) => (typeOperand rest).map fun t => Pseudo.forms (.ser r t)
  else none

/-- The command words of one line: none for a blank line or a comment, one for a command or a `.WORD`, one or two for a
pseudo-instruction (R63, R64, D20). -/
def assembleTokens : List Token → Option (List CommandWord)
  | [] => some []
  | .word m :: ops =>
    if m = ".WORD".toList then
      match ops with
      | [.word n] => (numberOf 40 n).map fun v => [BitVec.ofNat 40 v]
      | _ => none
    else ((formsOf m ops).bind formsInstrs).map (List.map encode)
  | _ :: _ => none

/-- One line of text. -/
def assembleLine (line : List Char) : Option (List CommandWord) := assembleTokens (tokenise line [])

/-- Cut a text at its line ends; the line read so far is held last character first. -/
def linesOf : List Char → List Char → List (List Char)
  | [], acc => [acc.reverse]
  | c :: cs, acc => if c = '\n' then acc.reverse :: linesOf cs [] else linesOf cs (c :: acc)

/-- Assemble lines in order; a line that is no form makes the whole text none. -/
def assembleLines : List (List Char) → Option (List CommandWord)
  | [] => some []
  | l :: ls => (assembleLine l).bind fun ws => (assembleLines ls).map (ws ++ ·)

/-- A program text, one command per line (R63). -/
def assemble (text : List Char) : Option (List CommandWord) := assembleLines (linesOf text [])

/-- One hexadecimal digit, upper case. -/
def hexDigit (n : Nat) : Char := if n < 10 then Char.ofNat (48 + n) else Char.ofNat (55 + n)

/-- A command word as ten hexadecimal digits, header first (R63). -/
def wordText (W : CommandWord) : List Char :=
  (List.range 10).map fun j => hexDigit (W.toNat / 16 ^ (9 - j) % 16)

end Sys2Proof.Machine
end

