-- ==== Sys2Proof/Machine/RegUse.lean ====
section
/-! DEFINITION. Machine/RegUse.lean: the register-use table of R35, with the type each pixel register is read as (R24,
R51) and the type a computed pixel is written as (R25). exec does not read it: it is the spec's table, which the
statements hold exec against. -/

namespace Sys2Proof.Machine

/-- One row of R35's table. -/
structure RegUse where
  /-- the type D is read as, where it is read -/
  readsD : Option PixelType
  /-- the type S is read as, where it is read -/
  readsS : Option PixelType
  writesD : Bool
  writesS : Bool
  /-- O and OLEN together -/
  writesO : Bool
  writesFD : Bool
  deriving DecidableEq, Repr

/-- A row that reads and writes nothing. -/
def RegUse.none : RegUse := ⟨Option.none, Option.none, false, false, false, false⟩

/-- R35's table, row by row. No row of an instruction writes ST.ILL. -/
def regUse : Form → RegUse
  | .nop => RegUse.none
  | .ld .D _ => { RegUse.none with writesD := true }
  | .ld .S _ => { RegUse.none with writesS := true }
  | .const .D _ _ => { RegUse.none with writesD := true }
  | .const .S _ _ => { RegUse.none with writesS := true }
  | .desc _ => { RegUse.none with writesFD := true }
  | .raw .D t => { RegUse.none with readsD := some t, writesO := true }
  | .raw .S t => { RegUse.none with readsS := some t, writesO := true }
  | .cvt .D s _ => { RegUse.none with readsD := some s, writesD := true }
  | .cvt .S s _ => { RegUse.none with readsS := some s, writesS := true }
  | .ovd s d => { RegUse.none with readsD := some d, readsS := some s, writesD := true }

/-- The register a form writes a pixel it computes to, and that pixel's type: CONST, CVT and OVD (R25). LD computes
none, it copies IMM. -/
def computes : Form → Option (PixReg × PixelType)
  | .nop => Option.none
  | .ld _ _ => Option.none
  | .desc _ => Option.none
  | .raw _ _ => Option.none
  | .cvt r _ d => some (r, d)
  | .ovd _ d => some (.D, d)
  | .const r t _ => some (r, t)

/-- A register value is canonical for t: every lane at index LEN(t) or above is 0 (R25). -/
def canonical (t : PixelType) (p : Word) : Bool := decide (p &&& maskOf t = p)

/-- Two register values that a read as this type cannot tell apart; any two, where nothing is read (R24). -/
def sameAs (t : Option PixelType) (p q : Word) : Bool :=
  match t with
  | Option.none => true
  | some t => decide (p &&& maskOf t = q &&& maskOf t)

end Sys2Proof.Machine
end

