-- ==== Sys2Proof/Machine/Observe.lean ====
section
/-! DEFINITION. Machine/Observe.lean: what the host can see (R34), and what it sees at a time, with LATENCY as an
argument (R5, R148, R149). -/

namespace Sys2Proof.Machine

/-- The six read-only outputs (R34). -/
structure Observation where
  D : Word
  S : Word
  O : Word
  OLEN : BitVec 3
  FD : BitVec 16
  ST : BitVec 1
  deriving DecidableEq, Repr

/-- An observation, made between steps; it is no command and changes nothing (R34, R45, R148). -/
def observe (s : State) : Observation := ⟨s.D, s.S, s.O, s.OLEN, s.FD, s.ST⟩

/-- Apply a list of host events in order, each completely (R44). -/
def presentEach : List HostEvent → State → Host.Outcome State Fault Refusal
  | [], s => .next s
  | e :: es, s =>
    match present e s with
    | .next t => presentEach es t
    | .fault f => .fault f
    | .refused r => .refused r

/-- The command words whose effect is visible at `now`: LATENCY is the time from accepting a command to its effect being
visible, and commands take effect in order, so the list is read up to the first whose effect is not (R5, R44, R148). -/
def visibleBy (latency now : Nat) : List (Nat × CommandWord) → List CommandWord
  | [] => []
  | (accepted, W) :: rest => if accepted + latency ≤ now then W :: visibleBy latency now rest else []

/-- The state the host's observation at `now` shows, from a start state and the commands with the times the block
accepted them (log entry 11). -/
def stateAt (latency now : Nat) (accepted : List (Nat × CommandWord)) (s : State) :
    Host.Outcome State Fault Refusal :=
  presentEach ((visibleBy latency now accepted).map HostEvent.command) s

end Sys2Proof.Machine
end

