-- ==== Sys2Proof/Safety.lean ====
section
/-! DEFINITION. Safety.lean: what counts as a safe state and a safe run, in the terms the statements use. -/

namespace Sys2Proof

open Sys2Proof.Machine

/-- A command word whose header encodes an instruction (R57, R61). -/
def legalWord (W : CommandWord) : Bool :=
  match decode W with
  | .ok _ => true
  | .error _ => false

/-- A run has gone wrong exactly if ST.ILL = 1 at its end (R150). -/
def goneWrong (s : State) : Bool := s.ill

/-- The values O, OLEN and FD can hold (R26, R27, V4): OLEN is 0, 1, 3 or 4, the bits of O at and above 8·OLEN are 0, and
FD is 0x0000 or one of the three descriptors. -/
def outputsLegal (s : State) : Bool :=
  decide (s.OLEN = 0#3 ∨ s.OLEN = 1#3 ∨ s.OLEN = 3#3 ∨ s.OLEN = 4#3) &&
  decide (s.O.toNat < 2 ^ (8 * s.OLEN.toNat)) &&
  decide (s.FD = 0x0000#16 ∨ s.FD = 0x0180#16 ∨ s.FD = 0x0381#16 ∨ s.FD = 0x0482#16)

/-- The number of a register in an encoding: 0 for D, 1 for S (R23, R51). -/
def PixReg.index : PixReg → Nat
  | .D => 0
  | .S => 1

/-- Channel i of a register value as a number, by arithmetic alone: the statements' own reading of R24's lanes, apart from
the machine's. -/
def channel (p : Word) (i : Nat) : Nat := p.toNat / 2 ^ (8 * i) % 256

/-- The luminance of a register's colour as a number (R8). -/
def luminance (p : Word) : Nat := (channel p 0 + channel p 1 + channel p 2) / 3

/-- Every word with header H decodes to i, whatever its IMM (R55, R57). -/
def EncodedAs (H : Nat) (i : Instr) : Prop := ∀ x : Word, decode (BitVec.ofNat 8 H ++ x) = .ok i

/-- Channel j of the source colour an OVD blends toward, as a number: the luminance on a Grayscale8 destination, the grey
channel or the colour channel otherwise (R101). -/
def sourceChannel (s d : PixelType) (S : Word) (j : Nat) : Nat :=
  match d, s with
  | .gray, .gray => channel S 0
  | .gray, .rgb => luminance S
  | .gray, .rgba => luminance S
  | .rgb, .gray => channel S 0
  | .rgba, .gray => channel S 0
  | .rgb, .rgb => channel S j
  | .rgb, .rgba => channel S j
  | .rgba, .rgb => channel S j
  | .rgba, .rgba => channel S j

/-- How many colour channels a type has (R20): its alpha is none. -/
def colourChannels : PixelType → Nat
  | .gray => 1
  | .rgb => 3
  | .rgba => 3

end Sys2Proof
end

