-- ==== Sys2Proof/Certificates/Slice0/Obligations.lean ====
section
/-! DEFINITION. Certificates/Slice0/Obligations.lean: the statements for the provers. Channels are read by arithmetic
(Safety.channel), not by the machine's own lane function, and divisions are the library's, so a statement about a result
does not repeat the definition it is about. -/

open Sys2Proof Sys2Proof.Machine

/-! ### Reset -/

/-- R36: the values after reset, and what they read as. -/
def Obligations.ResetLeavesEveryRegisterZero : Prop :=
  State.reset.D = 0x00000000#32 ∧ State.reset.S = 0x00000000#32 ∧ State.reset.O = 0x00000000#32 ∧
  State.reset.OLEN = 0#3 ∧ State.reset.FD = 0x0000#16 ∧ State.reset.ill = false ∧
  asRgba State.reset.D = ⟨0#8, 0#8, 0#8, 0#8⟩ ∧ asRgb State.reset.D = ⟨0#8, 0#8, 0#8⟩ ∧
  asGray State.reset.D = ⟨0#8⟩

/-- R140: the reset event, alone or with a command word that is lost, puts every register at its reset value; a command
presented before it is erased with the rest; nothing else brings ST.ILL back to 0. -/
def Obligations.ResetEventClearsEveryRegister : Prop :=
  (∀ (s : State) (lost : Option CommandWord) (rest : List HostEvent), s.pending = .reset lost :: rest →
    ∃ t, step s = .next t ∧ t.D = 0x00000000#32 ∧ t.S = 0x00000000#32 ∧ t.O = 0x00000000#32 ∧ t.OLEN = 0#3 ∧
      t.FD = 0x0000#16 ∧ t.ST = 0#1) ∧
  (∀ (s : State) (W : CommandWord) (lost : Option CommandWord) (rest : List HostEvent),
    s.pending = .command W :: .reset lost :: rest →
      Host.Core.run Sys2Proof.core 2 s = step { s with pending := .reset lost :: rest }) ∧
  (∀ s t : State, s.ill = true → step s = .next t → t.ill = false →
    ∃ lost rest, s.pending = .reset lost :: rest)

/-! ### Decoding and encoding -/

/-- A word decodes to an instruction exactly when it has the header that instruction is encoded with, and, for LD, its
immediate: no bit of an encoding is dropped, no word has two meanings (R50, R51, R55, R56, R65). -/
def Obligations.DecodeInvertsEncode : Prop :=
  ∀ (W : CommandWord) (i : Instr), decode W = .ok i ↔
    (W.extractLsb' 32 8 = (encode i).extractLsb' 32 8 ∧
      (i.form.usesImm = true → W.extractLsb' 0 32 = (encode i).extractLsb' 0 32))

/-- R51, R63: the number of an instruction's word is its header formula above its immediate, and the immediate emitted is
0 but for LD. -/
def Obligations.HeadersAddUpFromTheirFields : Prop :=
  ∀ i : Instr,
    (encode i).toNat = (32 * i.form.op.toNat + 8 * i.form.st.toNat + 2 * i.form.dt.toNat + i.form.r.toNat) * 2 ^ 32 +
      i.form.imm.toNat ∧
    (i.form.usesImm = false → i.form.imm = 0#32)

/-- R57: the 47 legal header bytes with the instruction of each, whatever IMM holds; every other header is illegal. -/
def Obligations.LegalHeadersAreTheFortySeven : Prop :=
  (∀ x : Word, decode (0x20#8 ++ x) = .ok (.ld .D x) ∧ decode (0x21#8 ++ x) = .ok (.ld .S x)) ∧
  (∀ p ∈ ([(0x00, .nop), (0x40, .descGray), (0x48, .descRgb), (0x50, .descRgba),
      (0x60, .rawGray .D), (0x61, .rawGray .S), (0x68, .rawRgb .D), (0x69, .rawRgb .S),
      (0x70, .rawRgba .D), (0x71, .rawRgba .S),
      (0x82, .cvtGrayRgb .D), (0x83, .cvtGrayRgb .S), (0x84, .cvtGrayRgba .D), (0x85, .cvtGrayRgba .S),
      (0x88, .cvtRgbGray .D), (0x89, .cvtRgbGray .S), (0x8C, .cvtRgbRgba .D), (0x8D, .cvtRgbRgba .S),
      (0x90, .cvtRgbaGray .D), (0x91, .cvtRgbaGray .S), (0x92, .cvtRgbaRgb .D), (0x93, .cvtRgbaRgb .S)]
      : List (Nat × Instr)), EncodedAs p.1 p.2) ∧
  (∀ p ∈ ([(0xA0, .ovdGrayGray), (0xA2, .ovdGrayRgb), (0xA4, .ovdGrayRgba),
      (0xA8, .ovdRgbGray), (0xAA, .ovdRgbRgb), (0xAC, .ovdRgbRgba),
      (0xB0, .ovdRgbaGray), (0xB2, .ovdRgbaRgb), (0xB4, .ovdRgbaRgba),
      (0xC0, .constGrayBlack .D), (0xC1, .constGrayBlack .S), (0xC2, .constGrayWhite .D), (0xC3, .constGrayWhite .S),
      (0xC8, .constRgbBlack .D), (0xC9, .constRgbBlack .S), (0xCA, .constRgbWhite .D), (0xCB, .constRgbWhite .S),
      (0xD0, .constRgbaBlack .D), (0xD1, .constRgbaBlack .S), (0xD2, .constRgbaWhite .D), (0xD3, .constRgbaWhite .S),
      (0xD4, .constRgbaTransparent .D), (0xD5, .constRgbaTransparent .S)]
      : List (Nat × Instr)), EncodedAs p.1 p.2) ∧
  ((List.range 256).filter fun H => legalWord (BitVec.ofNat 8 H ++ 0#32)).length = 47

/-- R61: the illegal header values by cause, each row of the table; their number; and the whole effect of one. -/
def Obligations.IllegalHeadersByCause : Prop :=
  (∀ H < 256,
    (decodeHeader (BitVec.ofNat 8 H) 0#32 = .error .nopWithOtherBits ↔ 0x01 ≤ H ∧ H ≤ 0x1F) ∧
    (decodeHeader (BitVec.ofNat 8 H) 0#32 = .error .ldFields ↔ 0x22 ≤ H ∧ H ≤ 0x3F) ∧
    (decodeHeader (BitVec.ofNat 8 H) 0#32 = .error .descFields ↔
      (0x41 ≤ H ∧ H ≤ 0x47) ∨ (0x49 ≤ H ∧ H ≤ 0x4F) ∨ (0x51 ≤ H ∧ H ≤ 0x5F)) ∧
    (decodeHeader (BitVec.ofNat 8 H) 0#32 = .error .rawFields ↔
      (0x62 ≤ H ∧ H ≤ 0x67) ∨ (0x6A ≤ H ∧ H ≤ 0x6F) ∨ (0x72 ≤ H ∧ H ≤ 0x7F)) ∧
    (decodeHeader (BitVec.ofNat 8 H) 0#32 = .error .cvtPair ↔
      H ∈ [0x80, 0x81, 0x8A, 0x8B, 0x94, 0x95] ∨ (0x98 ≤ H ∧ H ≤ 0x9F) ∨
      H ∈ [0x86, 0x87, 0x8E, 0x8F, 0x96, 0x97]) ∧
    (decodeHeader (BitVec.ofNat 8 H) 0#32 = .error .ovdFields ↔
      (0xA0 ≤ H ∧ H ≤ 0xBF) ∧ H ∉ [0xA0, 0xA2, 0xA4, 0xA8, 0xAA, 0xAC, 0xB0, 0xB2, 0xB4]) ∧
    (decodeHeader (BitVec.ofNat 8 H) 0#32 = .error .constPair ↔
      H ∈ [0xC6, 0xC7, 0xCE, 0xCF, 0xD6, 0xD7] ∨ H ∈ [0xC4, 0xC5, 0xCC, 0xCD] ∨ (0xD8 ≤ H ∧ H ≤ 0xDF)) ∧
    (decodeHeader (BitVec.ofNat 8 H) 0#32 = .error .reservedOp ↔ 0xE0 ≤ H ∧ H ≤ 0xFF)) ∧
  ((List.range 256).filter fun H => !legalWord (BitVec.ofNat 8 H ++ 0#32)).length = 209 ∧
  (∀ (W : CommandWord) (c : IllegalCause) (s : State), decode W = .error c →
    presentWord W s = .next { s with ST := 1#1 })

/-- A word of each family, written out bit by bit from the encodings of the opcode table, decodes to its instruction. -/
def Obligations.WordsOfEachFamilyDecode : Prop :=
  decode 0b0000000000000000000000000000000000000000#40 = .ok .nop ∧
  decode 0b0010000110000000110010001001011001100100#40 = .ok (.ld .S 0x80C89664#32) ∧
  decode 0b0100100000000000000000000000000000000000#40 = .ok .descRgb ∧
  decode 0b0110100000000000000000000000000000000000#40 = .ok (.rawRgb .D) ∧
  decode 0b1001001100000000000000000000000000000000#40 = .ok (.cvtRgbaRgb .S) ∧
  decode 0b1011001011011110101011011011111011101111#40 = .ok .ovdRgbaRgb ∧
  decode 0b1101010000000000000000000000000000000000#40 = .ok (.constRgbaTransparent .D) ∧
  decode 0b1010000100000000000000000000000000000000#40 = .error .ovdFields

/-! ### The step -/

/-- A step runs the decoded instruction: where the next event is a command word that decodes to i, step is exec of i at
the state with that event taken; where nothing is waiting, the block holds its registers (R44, R131; log entries 1, 2). -/
def Obligations.StepRunsTheDecodedInstruction : Prop :=
  (∀ (s : State) (W : CommandWord) (rest : List HostEvent) (i : Instr),
    s.pending = .command W :: rest → decode W = .ok i → step s = exec i { s with pending := rest }) ∧
  (∀ s : State, s.pending = [] → step s = .next s)

/-- Every step takes exactly one of the host's events, the oldest, and leaves the later ones, a reset too. The list of
events is the model's own (log entries 1, 2, 4). -/
def Obligations.EveryStepTakesOneEvent : Prop :=
  ∀ s t : State, step s = .next t → t.pending = s.pending.tail

/-- R120: an illegal header sets ST.ILL and changes nothing else, whatever IMM holds; a second one changes nothing
further; once set, the flag stays set through every later command. -/
def Obligations.IllegalCommandSetsOnlyTheStickyFlag : Prop :=
  (∀ (s : State) (W : CommandWord) (rest : List HostEvent) (c : IllegalCause),
    s.pending = .command W :: rest → decode W = .error c →
      ∃ t, step s = .next t ∧ t.ill = true ∧ t.D = s.D ∧ t.S = s.S ∧ t.O = s.O ∧ t.OLEN = s.OLEN ∧ t.FD = s.FD ∧
        t.pending = rest ∧ (s.ill = true → t = { s with pending := rest })) ∧
  (∀ (H : Header) (x y : Word) (s : State), legalWord (H ++ x) = false →
    presentWord (H ++ x) s = presentWord (H ++ y) s) ∧
  (∀ (s t : State) (W : CommandWord) (rest : List HostEvent),
    s.pending = .command W :: rest → s.ill = true → step s = .next t → t.ill = true)

/-- R121: every legal instruction completes in every state and leaves ST.ILL as it was. -/
def Obligations.LegalInstructionsCompleteAndRaiseNothing : Prop :=
  ∀ (i : Instr) (s : State), ∃ t, exec i s = .next t ∧ t.ST = s.ST

/-- R151: every step has exactly one next state, and every run of any number of steps ends in one: none faults, none is
refused, nothing is waited for. -/
def Obligations.EveryStepHasANextState : Prop :=
  (∀ s : State, ∃ t, step s = .next t ∧ ∀ u, step s = .next u → u = t) ∧
  (∀ (n : Nat) (s : State), ∃ t : State, Host.Core.run Sys2Proof.core n s = .next t)

/-- R150: the run of any finite list of command words from a state with ST.ILL = 0 ends, and it has gone wrong exactly if
some word had an illegal header. That no event is left then is about the model's own list of events (log entry 1). -/
def Obligations.RunGoesWrongExactlyOnAnIllegalWord : Prop :=
  ∀ (ws : List CommandWord) (s : State), s.ill = false →
    ∃ t : State, Host.Core.run Sys2Proof.core ws.length (presentAll ws s) = .next t ∧ t.pending = [] ∧
      (goneWrong t = true ↔ ∃ W ∈ ws, legalWord W = false)

/-- R44: a command stream may be cut anywhere: running its first part and then its second from the state the first left
is running the whole. The words stand in the model's own list of events (log entry 1). -/
def Obligations.StreamsMayBeCutAnywhere : Prop :=
  ∀ (ws vs : List CommandWord) (s t : State),
    Host.Core.run Sys2Proof.core ws.length (presentAll ws s) = .next t →
      Host.Core.run Sys2Proof.core (ws ++ vs).length (presentAll (ws ++ vs) s) =
        Host.Core.run Sys2Proof.core vs.length (presentAll vs t)

/-- R26, R27, V4: every step from a state whose O, OLEN and FD hold values the spec allows them leaves such a state. -/
def Obligations.OutputsStayLegal : Prop :=
  ∀ s t : State, outputsLegal s = true → step s = .next t → outputsLegal t = true

/-- R26, R27, R36: the reset state's outputs are legal. -/
def Obligations.OutputsAreLegalAtReset : Prop := outputsLegal State.reset = true

/-! ### What every instruction leaves alone -/

/-- R35, the written column: for every instruction, in every state, each register its row does not mark as written is
unchanged, and so is the input; ST is never written. -/
def Obligations.InstructionsWriteOnlyTheirRow : Prop :=
  ∀ (i : Instr) (s t : State), exec i s = .next t →
    ((regUse i.form).writesD = false → t.D = s.D) ∧ ((regUse i.form).writesS = false → t.S = s.S) ∧
    ((regUse i.form).writesO = false → t.O = s.O ∧ t.OLEN = s.OLEN) ∧
    ((regUse i.form).writesFD = false → t.FD = s.FD) ∧ t.ST = s.ST ∧ t.pending = s.pending

/-- R24, R32, R35, the read column: two states that agree on the lanes an instruction reads give the same value in every
register it writes, whatever else they hold. -/
def Obligations.ResultsDependOnlyOnTheLanesRead : Prop :=
  ∀ (i : Instr) (s s' t t' : State),
    sameAs (regUse i.form).readsD s.D s'.D = true → sameAs (regUse i.form).readsS s.S s'.S = true →
    exec i s = .next t → exec i s' = .next t' →
    ((regUse i.form).writesD = true → t.D = t'.D) ∧ ((regUse i.form).writesS = true → t.S = t'.S) ∧
    ((regUse i.form).writesO = true → t.O = t'.O ∧ t.OLEN = t'.OLEN) ∧
    ((regUse i.form).writesFD = true → t.FD = t'.FD)

/-- R25: every pixel an instruction computes is canonical for its type; LD copies IMM, canonical or not. -/
def Obligations.ComputedPixelsAreCanonical : Prop :=
  (∀ (i : Instr) (r : PixReg) (ty : PixelType) (s t : State),
    computes i.form = some (r, ty) → exec i s = .next t →
      ∀ j < 4, lenOf ty ≤ j → channel (readReg r t) j = 0) ∧
  (∀ (r : PixReg) (imm : Word) (s : State), ∃ t, exec (.ld r imm) s = .next t ∧ readReg r t = imm)

/-- R55, V2: two words with one header, not LD's, do the same to every state, whatever their IMM. -/
def Obligations.ImmediateIsIgnoredByAllButLd : Prop :=
  ∀ (H : Header) (x y : Word) (s : State), H.extractLsb' 5 3 ≠ 1#3 → presentWord (H ++ x) s = presentWord (H ++ y) s

/-! ### NOP, LD, CONST -/

/-- R70. -/
def Obligations.NopChangesNothing : Prop :=
  (∀ s : State, exec .nop s = .next s) ∧ EncodedAs 0x00 .nop ∧
  (∀ H, 0x01 ≤ H → H ≤ 0x1F → ∀ x : Word, legalWord (BitVec.ofNat 8 H ++ x) = false)

/-- R72: all 32 bits of IMM are written to the selected register; nothing else changes. -/
def Obligations.LdCopiesTheImmediate : Prop :=
  (∀ (imm : Word) (s : State), exec (.ld .D imm) s = .next { s with D := imm } ∧
    exec (.ld .S imm) s = .next { s with S := imm }) ∧
  (∀ (r : PixReg) (imm : Word), decode (BitVec.ofNat 8 (0x20 + r.index) ++ imm) = .ok (.ld r imm)) ∧
  (∀ H, 0x22 ≤ H → H ≤ 0x3F → ∀ x : Word, legalWord (BitVec.ofNat 8 H ++ x) = false)

/-- The six constants of BLACK and WHITE, each on either register. Their values are not the source's: "[from general
knowledge, not in source]" (40_moves_and_constants.md section 2; log entry 5). -/
def Obligations.ConstLoadsBlackAndWhite : Prop :=
  ∀ (r : PixReg) (s : State),
    exec (.constGrayBlack r) s = .next (writeReg r 0x00000000#32 s) ∧
    exec (.constGrayWhite r) s = .next (writeReg r 0x000000FF#32 s) ∧
    exec (.constRgbBlack r) s = .next (writeReg r 0x00000000#32 s) ∧
    exec (.constRgbWhite r) s = .next (writeReg r 0x00FFFFFF#32 s) ∧
    exec (.constRgbaBlack r) s = .next (writeReg r 0xFF000000#32 s) ∧
    exec (.constRgbaWhite r) s = .next (writeReg r 0xFFFFFFFF#32 s) ∧
    EncodedAs (0xC0 + r.index) (.constGrayBlack r) ∧ EncodedAs (0xC2 + r.index) (.constGrayWhite r) ∧
    EncodedAs (0xC8 + r.index) (.constRgbBlack r) ∧ EncodedAs (0xCA + r.index) (.constRgbWhite r) ∧
    EncodedAs (0xD0 + r.index) (.constRgbaBlack r) ∧ EncodedAs (0xD2 + r.index) (.constRgbaWhite r)

/-- TRANSPARENT, which exists for RGBA8 alone; as a source it changes no colour channel of any destination and sets an
RGBA8 destination's alpha to 0. That its colour is 0 is the spec's own choice (40_moves_and_constants.md section 2 (c);
log entry 5). -/
def Obligations.ConstLoadsTransparent : Prop :=
  (∀ (r : PixReg) (s : State), exec (.constRgbaTransparent r) s = .next (writeReg r 0x00000000#32 s) ∧
    EncodedAs (0xD4 + r.index) (.constRgbaTransparent r)) ∧
  (∀ H ∈ [0xC4, 0xC5, 0xCC, 0xCD], ∀ x : Word, legalWord (BitVec.ofNat 8 H ++ x) = false) ∧
  (∀ s : State,
    execEach [.constRgbaTransparent .S, .ovdRgbaGray] s = .next { s with S := 0#32, D := s.D &&& 0x000000FF#32 } ∧
    execEach [.constRgbaTransparent .S, .ovdRgbaRgb] s = .next { s with S := 0#32, D := s.D &&& 0x00FFFFFF#32 } ∧
    execEach [.constRgbaTransparent .S, .ovdRgbaRgba] s = .next { s with S := 0#32, D := s.D &&& 0x00FFFFFF#32 })

/-! ### DESC, RAW -/

/-- R81 to R83: the descriptor of each type, as a word and by its fields. -/
def Obligations.DescLatchesTheDescriptor : Prop :=
  ∀ s : State,
    exec .descGray s = .next { s with FD := 0x0180#16 } ∧ exec .descRgb s = .next { s with FD := 0x0381#16 } ∧
    exec .descRgba s = .next { s with FD := 0x0482#16 } ∧
    EncodedAs 0x40 .descGray ∧ EncodedAs 0x48 .descRgb ∧ EncodedAs 0x50 .descRgba ∧
    (fdTag 0x0180#16 = 0#2 ∧ fdDepth 0x0180#16 = 8#4 ∧ fdLen 0x0180#16 = 1#3 ∧ fdReserved 0x0180#16 = 0#7) ∧
    (fdTag 0x0381#16 = 1#2 ∧ fdDepth 0x0381#16 = 8#4 ∧ fdLen 0x0381#16 = 3#3 ∧ fdReserved 0x0381#16 = 0#7) ∧
    (fdTag 0x0482#16 = 2#2 ∧ fdDepth 0x0482#16 = 8#4 ∧ fdLen 0x0482#16 = 4#3 ∧ fdReserved 0x0482#16 = 0#7) ∧
    (∀ H ∈ [0x41, 0x42, 0x43, 0x44, 0x45, 0x46, 0x47, 0x58], ∀ x : Word, legalWord (BitVec.ofNat 8 H ++ x) = false)

/-- R84 to R86: RAW leaves the low LEN(t) lanes of the register in O, 0 above them, their number in OLEN, and nothing else
changed; the bytes, first to last, are the channels in order. R85's bytes are those of CVT RGBA to RGB, then RAW RGB. -/
def Obligations.RawSerialisesTheLowLanes : Prop :=
  (∀ (r : PixReg) (s : State), ∃ o : Word, o.toNat = (readReg r s).toNat % 2 ^ 8 ∧
    exec (.rawGray r) s = .next { s with O := o, OLEN := 1#3 } ∧
    rawBytes { s with O := o, OLEN := 1#3 } = [BitVec.ofNat 8 (channel (readReg r s) 0)] ∧
    EncodedAs (0x60 + r.index) (.rawGray r)) ∧
  (∀ (r : PixReg) (s : State), ∃ o : Word, o.toNat = (readReg r s).toNat % 2 ^ 24 ∧
    exec (.rawRgb r) s = .next { s with O := o, OLEN := 3#3 } ∧
    rawBytes { s with O := o, OLEN := 3#3 } =
      [BitVec.ofNat 8 (channel (readReg r s) 0), BitVec.ofNat 8 (channel (readReg r s) 1),
        BitVec.ofNat 8 (channel (readReg r s) 2)] ∧
    EncodedAs (0x68 + r.index) (.rawRgb r) ∧
    ∃ u, execEach [.cvtRgbaRgb r, .rawRgb r] s = .next u ∧ rawBytes u = rawBytes { s with O := o, OLEN := 3#3 }) ∧
  (∀ (r : PixReg) (s : State),
    exec (.rawRgba r) s = .next { s with O := readReg r s, OLEN := 4#3 } ∧
    rawBytes { s with O := readReg r s, OLEN := 4#3 } =
      [BitVec.ofNat 8 (channel (readReg r s) 0), BitVec.ofNat 8 (channel (readReg r s) 1),
        BitVec.ofNat 8 (channel (readReg r s) 2), BitVec.ofNat 8 (channel (readReg r s) 3)] ∧
    EncodedAs (0x70 + r.index) (.rawRgba r))

/-- R42: the bytes a RAW produced, loaded back into any register by LD, read as the same channels. -/
def Obligations.SerialiseThenLoadKeepsTheChannels : Prop :=
  ∀ (r r' : PixReg) (ty : PixelType) (i : Instr) (s : State), (Form.raw r ty).toInstr = some i →
    ∃ t u, exec i s = .next t ∧ exec (.ld r' (immOfBytes (rawBytes t))) t = .next u ∧
      ∀ j < lenOf ty, channel (readReg r' u) j = channel (readReg r s) j

/-! ### CVT -/

/-- R91: drop alpha, keep r, g, b; lane 3 becomes 0. -/
def Obligations.CvtRgbaToRgbDropsAlpha : Prop :=
  ∀ (r : PixReg) (s : State), EncodedAs (0x92 + r.index) (.cvtRgbaRgb r) ∧
    ∃ v : Word, exec (.cvtRgbaRgb r) s = .next (writeReg r v s) ∧ v.toNat = (readReg r s).toNat % 2 ^ 24

/-- R92: keep r, g, b, set a = 255; lane 3 of the input is ignored. -/
def Obligations.CvtRgbToRgbaSetsAlpha255 : Prop :=
  ∀ (r : PixReg) (s : State), EncodedAs (0x8C + r.index) (.cvtRgbRgba r) ∧
    ∃ v : Word, exec (.cvtRgbRgba r) s = .next (writeReg r v s) ∧
      v.toNat = (readReg r s).toNat % 2 ^ 24 + 255 * 2 ^ 24

/-- R93: r = g = b = the single channel. -/
def Obligations.CvtGrayToRgbReplicates : Prop :=
  ∀ (r : PixReg) (s : State), EncodedAs (0x82 + r.index) (.cvtGrayRgb r) ∧
    ∃ v : Word, exec (.cvtGrayRgb r) s = .next (writeReg r v s) ∧
      v.toNat = channel (readReg r s) 0 * 0x010101

/-- R94: the truncated unweighted average of three channels, the sum not wrapping; lanes 1 to 3 become 0. -/
def Obligations.CvtRgbToGrayAverages : Prop :=
  ∀ (r : PixReg) (s : State), EncodedAs (0x88 + r.index) (.cvtRgbGray r) ∧
    ∃ v : Word, exec (.cvtRgbGray r) s = .next (writeReg r v s) ∧
      v.toNat = (channel (readReg r s) 0 + channel (readReg r s) 1 + channel (readReg r s) 2) / 3

/-- R95: r = g = b = the channel, a = 255; the same as CVT GRAY to RGB, then RGB to RGBA. -/
def Obligations.CvtGrayToRgbaReplicatesOpaque : Prop :=
  ∀ (r : PixReg) (s : State), EncodedAs (0x84 + r.index) (.cvtGrayRgba r) ∧
    execEach [.cvtGrayRgb r, .cvtRgbRgba r] s = exec (.cvtGrayRgba r) s ∧
    ∃ v : Word, exec (.cvtGrayRgba r) s = .next (writeReg r v s) ∧
      v.toNat = channel (readReg r s) 0 * 0x010101 + 255 * 2 ^ 24

/-- R96: the luminance of the colour, alpha not read; the same as CVT RGBA to RGB, then RGB to GRAY. -/
def Obligations.CvtRgbaToGrayIgnoresAlpha : Prop :=
  ∀ (r : PixReg) (s : State), EncodedAs (0x90 + r.index) (.cvtRgbaGray r) ∧
    execEach [.cvtRgbaRgb r, .cvtRgbGray r] s = exec (.cvtRgbaGray r) s ∧
    ∃ v : Word, exec (.cvtRgbaGray r) s = .next (writeReg r v s) ∧
      v.toNat = (channel (readReg r s) 0 + channel (readReg r s) 1 + channel (readReg r s) 2) / 3

/-- R97: round trips, compositions and canonical results of the conversions, on either register. -/
def Obligations.ConversionLaws : Prop :=
  (∀ (r : PixReg) (s : State),
    execEach [.cvtRgbRgba r, .cvtRgbaRgb r] s = .next (writeReg r (readReg r s &&& 0x00FFFFFF#32) s) ∧
    execEach [.cvtGrayRgb r, .cvtRgbGray r] s = .next (writeReg r (readReg r s &&& 0x000000FF#32) s) ∧
    execEach [.cvtGrayRgba r, .cvtRgbaGray r] s = .next (writeReg r (readReg r s &&& 0x000000FF#32) s) ∧
    execEach [.cvtRgbaRgb r, .cvtRgbRgba r] s = .next (writeReg r (readReg r s ||| 0xFF000000#32) s) ∧
    (readReg r s ||| 0xFF000000#32 = readReg r s ↔ channel (readReg r s) 3 = 255) ∧
    (∃ v : Word, execEach [.cvtRgbGray r, .cvtGrayRgb r] s = .next (writeReg r v s) ∧
      v.toNat = luminance (readReg r s) * 0x010101 ∧
      (v = readReg r s &&& 0x00FFFFFF#32 ↔
        channel (readReg r s) 0 = channel (readReg r s) 1 ∧ channel (readReg r s) 1 = channel (readReg r s) 2)) ∧
    execEach [.cvtRgbaRgb r, .cvtRgbGray r] s = exec (.cvtRgbaGray r) s) ∧
  (∀ (i : Instr) (r : PixReg) (a b : PixelType) (s : State) (p : Word), i.form = .cvt r a b →
    sameAs (some a) p (readReg r s) = true →
      ∃ v : Word, canonical b v = true ∧ exec i s = .next (writeReg r v s) ∧
        exec i (writeReg r p s) = .next (writeReg r v s))

/-! ### OVD -/

/-- R104: an RGB8 source replaces an RGB8 destination, twice as once; lane 3 of D becomes 0. -/
def Obligations.OpaqueRgbReplacesRgb : Prop :=
  EncodedAs 0xAA .ovdRgbRgb ∧
  ∀ s : State, ∃ v : Word, exec .ovdRgbRgb s = .next { s with D := v } ∧ v.toNat = s.S.toNat % 2 ^ 24 ∧
    execEach [.ovdRgbRgb, .ovdRgbRgb] s = .next { s with D := v }

/-- R106: an RGB8 source replaces the colour of an RGBA8 destination and forces its alpha to 255; the same as converting
the source to RGBA8 first. -/
def Obligations.OpaqueRgbReplacesRgbaAndForcesAlpha : Prop :=
  EncodedAs 0xAC .ovdRgbRgba ∧
  ∀ s : State, ∃ v : Word, exec .ovdRgbRgba s = .next { s with D := v } ∧
    v.toNat = s.S.toNat % 2 ^ 24 + 255 * 2 ^ 24 ∧
    execEach [.cvtRgbRgba .S, .ovdRgbaRgba] s = .next { s with D := v, S := v }

/-- A Grayscale8 source on a colour destination: its channel in r, g and b, alpha 255 where there is one; the same as
converting the source first, except that S is not changed. The expansion to three channels is the spec's own inference
("does not spell out the grey-to-colour expansion", 43_overdraw.md section 2). -/
def Obligations.GraySourceIsReplicatedOntoColour : Prop :=
  EncodedAs 0xA2 .ovdGrayRgb ∧ EncodedAs 0xA4 .ovdGrayRgba ∧
  (∀ s : State, ∃ v : Word, exec .ovdGrayRgb s = .next { s with D := v } ∧ v.toNat = channel s.S 0 * 0x010101 ∧
    execEach [.cvtGrayRgb .S, .ovdRgbRgb] s = .next { s with D := v, S := v }) ∧
  (∀ s : State, ∃ v : Word, exec .ovdGrayRgba s = .next { s with D := v } ∧
    v.toNat = channel s.S 0 * 0x010101 + 255 * 2 ^ 24 ∧
    exec (.cvtGrayRgba .S) s = .next { s with S := v } ∧
    execEach [.cvtGrayRgba .S, .ovdRgbaRgba] s = .next { s with D := v, S := v })

/-- An RGB8 source on a Grayscale8 destination writes its luminance, truncated, twice as once. "The source does not say
what the single channel is replaced with": the luminance is the spec's own choice (43_overdraw.md section 4; log entry 7). -/
def Obligations.RgbSourceWritesItsLuminanceToGray : Prop :=
  EncodedAs 0xA8 .ovdRgbGray ∧
  ∀ s : State, ∃ v : Word, exec .ovdRgbGray s = .next { s with D := v } ∧
    v.toNat = (channel s.S 0 + channel s.S 1 + channel s.S 2) / 3 ∧
    execEach [.ovdRgbGray, .ovdRgbGray] s = .next { s with D := v }

/-- R109: a Grayscale8 source replaces the single channel, twice as once; lanes 1 to 3 of D become 0. -/
def Obligations.GraySourceReplacesGray : Prop :=
  EncodedAs 0xA0 .ovdGrayGray ∧
  ∀ s : State, ∃ v : Word, exec .ovdGrayGray s = .next { s with D := v } ∧ v.toNat = channel s.S 0 ∧
    execEach [.ovdGrayGray, .ovdGrayGray] s = .next { s with D := v }

/-- R110: r, g, b blend with the source alpha as weight, truncating toward zero; lane 3 of D becomes 0. -/
def Obligations.RgbaSourceBlendsRgb : Prop :=
  EncodedAs 0xB2 .ovdRgbaRgb ∧
  ∀ s : State, ∃ v : Word, exec .ovdRgbaRgb s = .next { s with D := v } ∧ v.toNat < 2 ^ 24 ∧
    ∀ i < 3, (channel v i : Int) =
      channel s.D i + Int.tdiv (((channel s.S i : Int) - channel s.D i) * channel s.S 3) 255

/-- R111: r, g, b blend as onto RGB8; the new alpha is twice the source alpha, saturated, whatever the old alpha was. -/
def Obligations.RgbaSourceBlendsRgbaAndDoublesAlpha : Prop :=
  EncodedAs 0xB4 .ovdRgbaRgba ∧
  ∀ s : State, ∃ v : Word, exec .ovdRgbaRgba s = .next { s with D := v } ∧
    channel v 3 = min 255 (channel s.S 3 + channel s.S 3) ∧
    (∀ i < 3, (channel v i : Int) =
      channel s.D i + Int.tdiv (((channel s.S i : Int) - channel s.D i) * channel s.S 3) 255) ∧
    (channel s.S 3 = 255 → v = s.S)

/-- R112: the truncated luminance of the source, then the blend with its alpha; lanes 1 to 3 of D become 0. -/
def Obligations.RgbaSourceBlendsGray : Prop :=
  EncodedAs 0xB0 .ovdRgbaGray ∧
  ∀ s : State, ∃ v : Word, exec .ovdRgbaGray s = .next { s with D := v } ∧
    (v.toNat : Int) = channel s.D 0 +
      Int.tdiv ((((channel s.S 0 + channel s.S 1 + channel s.S 2) / 3 : Nat) - (channel s.D 0 : Int)) *
        channel s.S 3) 255

/-- R103: idempotence of opaque sources (and its failure for an RGBA8 source), the zero-weight and full-weight
boundaries, results between old destination and source, full weight as the opaque cell. What an RGB8 source writes to a
Grayscale8 destination is the spec's own choice (log entry 7). -/
def Obligations.OverdrawLaws : Prop :=
  (∀ (i : Instr) (a d : PixelType) (s : State), i.form = .ovd a d → a ≠ .rgba → execEach [i, i] s = exec i s) ∧
  (∀ i ∈ [Instr.ovdRgbaGray, .ovdRgbaRgb, .ovdRgbaRgba], ∃ s : State, execEach [i, i] s ≠ exec i s) ∧
  (∀ s : State, channel s.S 3 = 0 →
    exec .ovdRgbaRgb s = .next { s with D := s.D &&& 0x00FFFFFF#32 } ∧
    exec .ovdRgbaRgba s = .next { s with D := s.D &&& 0x00FFFFFF#32 }) ∧
  (∀ s : State, channel s.S 3 = 255 → exec .ovdRgbaRgba s = .next { s with D := s.S }) ∧
  (∀ (i : Instr) (a d : PixelType) (s t : State), i.form = .ovd a d → exec i s = .next t →
    ∀ j < colourChannels d,
      min (channel s.D j) (sourceChannel a d s.S j) ≤ channel t.D j ∧
      channel t.D j ≤ max (channel s.D j) (sourceChannel a d s.S j)) ∧
  (∀ s : State, channel s.S 3 = 255 →
    exec .ovdRgbaGray s = exec .ovdRgbGray s ∧ exec .ovdRgbaRgb s = exec .ovdRgbRgb s ∧
    exec .ovdRgbaRgba s = exec .ovdRgbRgba s)

/-- R113: for an opaque source the direct cell and convert-then-overdraw leave the same D, for every state and every
destination type that differs; for an RGBA8 source on a destination without alpha they leave the same D exactly when the
source is opaque or the destination already has the source's colour (the rule's numbers among the rest). -/
def Obligations.WhereDirectAndConvertFirstAgree : Prop :=
  (∀ (a d : PixelType) (i : Instr) (is : List Instr) (s : State), a ≠ .rgba → a ≠ d → (Form.ovd a d).toInstr = some i →
    Pseudo.expand (.cvtovd a d) = some is →
      ∃ t u, exec i s = .next t ∧ execEach is s = .next u ∧ t.D = u.D) ∧
  (∀ (d : PixelType) (i : Instr) (is : List Instr) (s : State), d ≠ .rgba → (Form.ovd .rgba d).toInstr = some i →
    Pseudo.expand (.cvtovd .rgba d) = some is →
      ∃ t u, exec i s = .next t ∧ execEach is s = .next u ∧
        (t.D = u.D ↔ channel s.S 3 = 255 ∨ ∀ j < colourChannels d, channel s.D j = sourceChannel .rgba d s.S j)) ∧
  (∀ s : State, s.S = 0x80C89664#32 → s.D = 0x00323232#32 →
    ∃ t u, exec .ovdRgbaRgb s = .next t ∧ execEach [.cvtRgbaRgb .S, .ovdRgbRgb] s = .next u ∧
      t.D = 0x007D644B#32 ∧ u.D = 0x00C89664#32) ∧
  (∀ s : State, s.S = 0x80C89664#32 → s.D = 0x00000032#32 →
    ∃ t u, exec .ovdRgbaGray s = .next t ∧ execEach [.cvtRgbaGray .S, .ovdGrayGray] s = .next u ∧
      t.D = 0x00000064#32 ∧ u.D = 0x00000096#32)

/-! ### Arithmetic -/

/-- R6: tdiv is the one quotient whose remainder is smaller than the divisor and has the sign of the dividend, and it
differs from floor division, by one, exactly on negative inexact dividends. -/
def Obligations.TdivTruncatesTowardZero : Prop :=
  ∀ (n : Int) (m : Nat), 0 < m →
    (0 ≤ n → tdiv n m = Int.fdiv n m) ∧ (n < 0 → tdiv n m = -Int.fdiv (-n) m) ∧
    (∀ q : Int, q = tdiv n m ↔
      ∃ rem : Int, n = q * m + rem ∧ rem.natAbs < m ∧ (rem = 0 ∨ (0 < rem ∧ 0 < n) ∨ (rem < 0 ∧ n < 0))) ∧
    (tdiv n m ≠ Int.fdiv n m ↔ n < 0 ∧ ¬ (m : Int) ∣ n) ∧
    (n < 0 → ¬ (m : Int) ∣ n → tdiv n m = Int.fdiv n m + 1)

/-- R8: the luminance is the truncated third of a sum formed without wrap-around, so a 10-bit datapath gives it. -/
def Obligations.LuminanceIsTheTruncatedAverage : Prop :=
  (∀ r g b : Byte, (lum8 r g b).toNat = (r.toNat + g.toNat + b.toNat) / 3 ∧
    lum8 r g b = ((r.setWidth 10 + g.setWidth 10 + b.setWidth 10) / 3#10).setWidth 8) ∧
  (∀ v : Byte, lum8 v v v = v) ∧
  lum8 1#8 1#8 0#8 = 0#8 ∧ lum8 255#8 255#8 254#8 = 254#8 ∧ lum8 255#8 0#8 0#8 = 85#8 ∧ lum8 10#8 20#8 30#8 = 20#8

/-- R9: the blend in integers, which no width enters (D19); a two's-complement datapath of any width of at least 17 bits,
difference then product then division truncating toward zero then sum, gives it; 16 bits do not, nor does dividing the
weight or the difference first. -/
def Obligations.BlendNeedsSeventeenBits : Prop :=
  (∀ d s w : Byte, ((blend8 d s w).toNat : Int) =
    d.toNat + Int.tdiv (((s.toNat : Int) - d.toNat) * w.toNat) 255) ∧
  (∃ d s w : Byte, ((blend8 d s w).toNat : Int) ≠
    d.toNat + ((s.toNat : Int) - d.toNat) * Int.tdiv w.toNat 255) ∧
  (∃ d s w : Byte, ((blend8 d s w).toNat : Int) ≠
    d.toNat + Int.tdiv ((s.toNat : Int) - d.toNat) 255 * w.toNat) ∧
  (∀ (n : Nat) (d s w : Byte), 17 ≤ n →
    blend8 d s w =
      (d.setWidth n + ((s.setWidth n - d.setWidth n) * w.setWidth n).sdiv (BitVec.ofNat n 255)).setWidth 8) ∧
  (∃ d s w : Byte, blend8 d s w ≠
    (d.setWidth 16 + ((s.setWidth 16 - d.setWidth 16) * w.setWidth 16).sdiv (BitVec.ofNat 16 255)).setWidth 8)

/-- R10: the laws of blend8. -/
def Obligations.BlendLaws : Prop :=
  (∀ d s : Byte, blend8 d s 255#8 = s ∧ blend8 d s 0#8 = d) ∧
  (∀ d w : Byte, blend8 d d w = d) ∧
  (∀ d s w : Byte, min d.toNat s.toNat ≤ (blend8 d s w).toNat ∧ (blend8 d s w).toNat ≤ max d.toNat s.toNat) ∧
  (∀ d s v w : Byte, v.toNat ≤ w.toNat →
    (d.toNat ≤ s.toNat → (blend8 d s v).toNat ≤ (blend8 d s w).toNat) ∧
    (s.toNat ≤ d.toNat → (blend8 d s w).toNat ≤ (blend8 d s v).toNat)) ∧
  (∀ w : Byte, w.toNat < 255 → blend8 10#8 11#8 w = 10#8) ∧
  blend8 50#8 100#8 128#8 = 75#8 ∧ blend8 200#8 100#8 128#8 = 150#8 ∧ blend8 11#8 10#8 254#8 = 11#8

/-- R11: saturation at 255 of a sum of up to 9 bits, and the doubled alpha. -/
def Obligations.DoubledAlphaSaturates : Prop :=
  (∀ n < 512, (sat8 n).toNat = if n > 255 then 255 else n) ∧
  (∀ a : Byte, (a.toNat ≤ 127 → (sat8 (a.toNat + a.toNat)).toNat = 2 * a.toNat) ∧
    (128 ≤ a.toNat → (sat8 (a.toNat + a.toNat)).toNat = 255)) ∧
  (∀ sa da : Byte, alphaAcc sa da = if 255 < sa.toNat + sa.toNat then 255#8 else sa + sa)

/-- R13: the divider-free divisions are exact on the ranges the datapath needs, and the shorter constant is not. -/
def Obligations.DividerFreeDivisionIsExact : Prop :=
  (∀ n ≤ 65025, fdiv255ShiftAdd n = n / 255 ∧ fdiv255MulShift n = n / 255) ∧
  (∀ n ≤ 765, fdiv3MulShift11 n = n / 3 ∧ fdiv3MulShift17 n = n / 3) ∧
  (∃ n ≤ 765, fdiv3MulShift9 n ≠ n / 3) ∧
  (∀ p : Int, -65025 ≤ p → p ≤ 65025 → tdiv255ShiftAdd p = tdiv p 255)

/-! ### Pseudo-instructions, instances, observation -/

/-- R64: what each pseudo-instruction does, as the commands it abbreviates; CVTOVD has no expansion on equal types. The
values CLRD leaves are those of the constant store, which the source does not give (log entry 5). -/
def Obligations.PseudoInstructionsAbbreviate : Prop :=
  (∀ (imm : Word) (s : State), ∃ is js, Pseudo.expand (.ldd imm) = some is ∧ Pseudo.expand (.lds imm) = some js ∧
    execEach is s = .next { s with D := imm } ∧ execEach js s = .next { s with S := imm }) ∧
  (∀ (t : PixelType) (s : State), ∃ is, Pseudo.expand (.clrd t) = some is ∧
    execEach is s = .next { s with D := match t with | .gray => 0#32 | .rgb => 0#32 | .rgba => 0xFF000000#32 }) ∧
  (∀ (a d : PixelType), a ≠ d → ∃ i j, (Form.cvt .S a d).toInstr = some i ∧ (Form.ovd d d).toInstr = some j ∧
    Pseudo.expand (.cvtovd a d) = some [i, j]) ∧
  (∀ t : PixelType, Pseudo.expand (.cvtovd t t) = none) ∧
  (∀ (r : PixReg) (t : PixelType) (s : State), ∃ i j u,
    (Form.desc t).toInstr = some i ∧ (Form.raw r t).toInstr = some j ∧ Pseudo.expand (.ser r t) = some [i, j] ∧
    execEach [i, j] s = .next u ∧ u.D = s.D ∧ u.S = s.S ∧ u.ST = s.ST ∧
    u.FD = (match t with | .gray => 0x0180#16 | .rgb => 0x0381#16 | .rgba => 0x0482#16) ∧
    u.OLEN.toNat = lenOf t ∧ rawBytes u = bytesOf t (readReg r s))

/-- R48, R130: stepping one instance leaves every other as it was and is that instance's own step; steps of two different
instances may be taken in either order. -/
def Obligations.InstancesShareNothing : Prop :=
  (∀ (k : Nat) (sys : List State), ∃ sys', stepInstance k sys = .next sys' ∧
    (∀ j, j ≠ k → sys'[j]? = sys[j]?) ∧ (∀ s, sys[k]? = some s → ∃ t, step s = .next t ∧ sys'[k]? = some t)) ∧
  (∀ (j k : Nat) (sys : List State), j ≠ k → stepSchedule [j, k] sys = stepSchedule [k, j] sys)

/-- R34, R44, R148, D16: for every latency there is a number k of commands for each time, never less at a later time, such
that what is observed at that time is the state after the first k accepted commands, each completely and in order: every
one of those is due by then and the next is not, so all of them show once every effect is due and none before the first
is. The reading of LATENCY is the model's own (log entry 11). -/
def Obligations.ObservationShowsAWholePrefix : Prop :=
  ∀ (latency : Nat) (accepted : List (Nat × CommandWord)), ∃ k : Nat → Nat,
    (∀ now later, now ≤ later → k now ≤ k later) ∧
    (∀ now, k now ≤ accepted.length) ∧
    (∀ now, ∀ p ∈ accepted.take (k now), p.1 + latency ≤ now) ∧
    (∀ now p, accepted[k now]? = some p → now < p.1 + latency) ∧
    (∀ now, (∀ p ∈ accepted, p.1 + latency ≤ now) → k now = accepted.length) ∧
    (∀ now, (∀ p ∈ accepted, now < p.1 + latency) → k now = 0) ∧
    (∀ (now : Nat) (s : State), ∃ t, stateAt latency now accepted s = .next t ∧
      Host.Core.run Sys2Proof.core (k now) (presentAll ((accepted.take (k now)).map Prod.snd) s) =
        .next { t with pending := [] } ∧
      presentEach (((accepted.take (k now)).map Prod.snd).map HostEvent.command) s = .next t)

/-- R63, R64: the assembler gives every line form its command word, on the lines of programs P1, P3b and P5 of
95_test_vectors.md, and refuses a form that names no instruction. -/
def Obligations.AssemblerWritesTheVectorsWords : Prop :=
  assemble "CONST D, RGB, WHITE\nLD S, #0x80C89664\nOVD RGBA, RGB\nDESC RGB\nRAW D, RGB".toList =
    some [0xCA00000000#40, 0x2180C89664#40, 0xB200000000#40, 0x4800000000#40, 0x6800000000#40] ∧
  assembleLine "CVTOVD RGBA, GRAY ; convert, then overdraw".toList = some [0x9100000000#40, 0xA000000000#40] ∧
  assembleLine ".WORD 0x8A12345678".toList = some [0x8A12345678#40] ∧
  assembleLine "CVT D, RGB, RGB".toList = none ∧ assembleLine "CONST D, GRAY, TRANSPARENT".toList = none ∧
  wordText 0x2180C89664#40 = "2180C89664".toList
end

