-- ==== Sys2Proof/Laws/Arith.lean ====
section
/-! SUPPORT. Laws/Arith.lean: the five primitives as numbers (R6 to R11). -/

namespace Sys2Proof.Machine

/-- The truncating division of R6 is the library's. -/
theorem tdiv_eq_tdiv (n : Int) (m : Nat) : tdiv n m = Int.tdiv n m := by
  unfold tdiv
  split
  next h => rw [Int.tdiv_eq_ediv_of_nonneg h]
  next h =>
    have h' : 0 ≤ -n := by omega
    rw [← Int.tdiv_eq_ediv_of_nonneg h', Int.neg_tdiv, neg_neg]

/-- A blend moves by no more than the difference, and never past the source. -/
theorem tdiv_blend_bounds (a w : Int) (hw : 0 ≤ w) (hw' : w ≤ 255) :
    (0 ≤ a → 0 ≤ Int.tdiv (a * w) 255 ∧ Int.tdiv (a * w) 255 ≤ a) ∧
    (a ≤ 0 → a ≤ Int.tdiv (a * w) 255 ∧ Int.tdiv (a * w) 255 ≤ 0) := by
  have key : ∀ b : Int, 0 ≤ b → 0 ≤ Int.tdiv (b * w) 255 ∧ Int.tdiv (b * w) 255 ≤ b := by
    intro b hb
    have h0 : 0 ≤ b * w := mul_nonneg hb hw
    have h1 : b * w ≤ b * 255 := mul_le_mul_of_nonneg_left hw' hb
    rw [Int.tdiv_eq_ediv_of_nonneg h0]
    omega
  refine ⟨key a, fun ha => ?_⟩
  have h := key (-a) (by omega)
  rw [neg_mul, Int.neg_tdiv] at h
  omega

/-- The blend as a number: it stays within a byte, so the final narrowing discards nothing (R9, R10 (d)). -/
theorem blend8_toInt (d s w : Byte) :
    ((blend8 d s w).toNat : Int) = d.toNat + Int.tdiv (((s.toNat : Int) - d.toNat) * w.toNat) 255 := by
  have hd := d.isLt; have hs := s.isLt; have hw := w.isLt
  have hb := tdiv_blend_bounds ((s.toNat : Int) - d.toNat) w.toNat (by omega) (by omega)
  have hr : 0 ≤ (d.toNat : Int) + Int.tdiv (((s.toNat : Int) - d.toNat) * w.toNat) 255 ∧
      (d.toNat : Int) + Int.tdiv (((s.toNat : Int) - d.toNat) * w.toNat) 255 < 256 := by
    rcases le_total (d.toNat : Int) s.toNat with h | h
    · have := hb.1 (by omega); omega
    · have := hb.2 (by omega); omega
  simp only [blend8, tdiv_eq_tdiv, Config.blendDivisor, BitVec.toNat_ofInt]
  push_cast
  rw [Int.toNat_of_nonneg (Int.emod_nonneg _ (by decide)), Int.emod_eq_of_lt hr.1 hr.2]

/-- Full weight replaces (R10 (a)). -/
@[simp] theorem blend8_opaque (d s : Byte) : blend8 d s Config.opaqueWeight = s := by
  apply BitVec.eq_of_toNat_eq
  have h := blend8_toInt d s Config.opaqueWeight
  have hw : (Config.opaqueWeight.toNat : Int) = 255 := by decide
  rw [hw, Int.mul_tdiv_cancel _ (by decide : (255 : Int) ≠ 0)] at h
  omega

/-- The luminance as a number; it needs no more than a byte (R8). -/
theorem lum8_toNat (r g b : Byte) : (lum8 r g b).toNat = (r.toNat + g.toNat + b.toNat) / 3 := by
  have := r.isLt; have := g.isLt; have := b.isLt
  simp only [lum8, fdiv, Config.luminanceDivisor, BitVec.toNat_ofNat]
  omega

/-- The luminance of a grey is that grey (R8). -/
@[simp] theorem lum8_grey (v : Byte) : lum8 v v v = v := by
  apply BitVec.eq_of_toNat_eq
  rw [lum8_toNat]; omega

/-- Saturation as a number, on the 9-bit sums it is used on (R11). -/
theorem sat8_toNat (n : Nat) : (sat8 n).toNat = min 255 n := by
  unfold sat8
  split
  next h => simp; omega
  next h => simp only [BitVec.toNat_ofNat]; omega

end Sys2Proof.Machine
end

