-- ==== Sys2Proof/Laws/Encoding.lean ====
section
/-! SUPPORT. Laws/Encoding.lean: codes and their inverses, forms and instructions, the fields of a header. -/

namespace Sys2Proof

@[simp] theorem typeOfCode_typeCode (t : PixelType) : typeOfCode (typeCode t) = some t := by cases t <;> rfl
@[simp] theorem constOfCode_constCode (k : ConstName) : constOfCode (constCode k) = some k := by cases k <;> rfl
@[simp] theorem regOfCode_regCode (r : PixReg) : regOfCode (regCode r) = r := by cases r <;> rfl
@[simp] theorem regCode_regOfCode (c : BitVec 1) : regCode (regOfCode c) = c := by revert c; decide

/-- A code that names a type is that type's code. -/
theorem typeCode_of_typeOfCode {c : BitVec 2} {t : PixelType} (h : typeOfCode c = some t) : typeCode t = c := by
  revert c t; decide

/-- A code that names a constant is that constant's code. -/
theorem constCode_of_constOfCode {c : BitVec 2} {k : ConstName} (h : constOfCode c = some k) : constCode k = c := by
  revert c k; decide

/-- The form an instruction is written in names that instruction. -/
@[simp] theorem toInstr_form (i : Instr) : i.form.toInstr = some i := by cases i <;> rfl

/-- A form that names an instruction is the form it is written in. -/
theorem form_of_toInstr {f : Form} {i : Instr} (h : f.toInstr = some i) : i.form = f := by
  cases f with
  | nop => cases h; rfl
  | ld r imm => cases h; rfl
  | desc t => cases t <;> cases h <;> rfl
  | raw r t => cases t <;> cases h <;> rfl
  | cvt r s d => cases s <;> cases d <;> cases h <;> rfl
  | ovd s d => cases s <;> cases d <;> cases h <;> rfl
  | const r t k => cases t <;> cases k <;> cases h <;> rfl

/-- The well-formed forms are those that name an instruction. -/
theorem wf_iff_toInstr (f : Form) : f.wf = f.toInstr.isSome := by
  cases f with
  | nop => rfl
  | ld r imm => rfl
  | desc t => cases t <;> rfl
  | raw r t => cases t <;> rfl
  | cvt r s d => cases s <;> cases d <;> rfl
  | ovd s d => cases s <;> cases d <;> rfl
  | const r t k => cases t <;> cases k <;> rfl

/-- Every instruction is well-formed. -/
theorem instr_wf (i : Instr) : i.wf = true := by
  rw [Instr.wf, wf_iff_toInstr, toInstr_form]; rfl

/-- The value of a command word from its two parts. -/
theorem append_toNat (H : Header) (x : Word) : (H ++ x : BitVec 40).toNat = H.toNat * 2 ^ 32 + x.toNat := by
  rw [BitVec.toNat_append, ← Nat.shiftLeft_add_eq_or_of_lt x.isLt, Nat.shiftLeft_eq]

@[simp] theorem headerOf_append (H : Header) (x : Word) : headerOf (H ++ x) = H := by
  apply BitVec.eq_of_toNat_eq
  have := H.isLt; have := x.isLt
  rw [headerOf, BitVec.extractLsb'_toNat, append_toNat, Nat.shiftRight_eq_div_pow]
  omega

@[simp] theorem immOf_append (H : Header) (x : Word) : immOf (H ++ x) = x := by
  apply BitVec.eq_of_toNat_eq
  have := H.isLt; have := x.isLt
  rw [immOf, BitVec.extractLsb'_toNat, append_toNat, Nat.shiftRight_eq_div_pow]
  omega

/-- A command word is its header above its immediate. -/
theorem header_append_imm (W : CommandWord) : headerOf W ++ immOf W = W := by
  apply BitVec.eq_of_toNat_eq
  have := W.isLt
  rw [append_toNat, headerOf, immOf, BitVec.extractLsb'_toNat, BitVec.extractLsb'_toNat, Nat.shiftRight_eq_div_pow,
    Nat.shiftRight_eq_div_pow]
  omega

end Sys2Proof
end

