-- ==== Sys2Proof/Laws/State.lean ====
section
/-! SUPPORT. Laws/State.lean: one lemma per field per update, so that no proof unfolds a record update. -/

namespace Sys2Proof.Machine

@[simp] theorem readReg_D (s : State) : readReg .D s = s.D := rfl
@[simp] theorem readReg_S (s : State) : readReg .S s = s.S := rfl

@[simp] theorem writeReg_D_D (v : Word) (s : State) : (writeReg .D v s).D = v := rfl
@[simp] theorem writeReg_D_S (v : Word) (s : State) : (writeReg .D v s).S = s.S := rfl
@[simp] theorem writeReg_S_D (v : Word) (s : State) : (writeReg .S v s).D = s.D := rfl
@[simp] theorem writeReg_S_S (v : Word) (s : State) : (writeReg .S v s).S = v := rfl
@[simp] theorem writeReg_O (r : PixReg) (v : Word) (s : State) : (writeReg r v s).O = s.O := by cases r <;> rfl
@[simp] theorem writeReg_OLEN (r : PixReg) (v : Word) (s : State) : (writeReg r v s).OLEN = s.OLEN := by
  cases r <;> rfl
@[simp] theorem writeReg_FD (r : PixReg) (v : Word) (s : State) : (writeReg r v s).FD = s.FD := by cases r <;> rfl
@[simp] theorem writeReg_ST (r : PixReg) (v : Word) (s : State) : (writeReg r v s).ST = s.ST := by cases r <;> rfl
@[simp] theorem writeReg_pending (r : PixReg) (v : Word) (s : State) : (writeReg r v s).pending = s.pending := by
  cases r <;> rfl

@[simp] theorem readReg_writeReg (r : PixReg) (v : Word) (s : State) : readReg r (writeReg r v s) = v := by
  cases r <;> rfl
@[simp] theorem writeReg_writeReg (r : PixReg) (v w : Word) (s : State) :
    writeReg r v (writeReg r w s) = writeReg r v s := by cases r <;> rfl
@[simp] theorem writeReg_readReg (r : PixReg) (s : State) : writeReg r (readReg r s) s = s := by cases r <;> rfl

@[simp] theorem writeRaw_D (v : Word) (n : Nat) (s : State) : (writeRaw v n s).D = s.D := rfl
@[simp] theorem writeRaw_S (v : Word) (n : Nat) (s : State) : (writeRaw v n s).S = s.S := rfl
@[simp] theorem writeRaw_O (v : Word) (n : Nat) (s : State) : (writeRaw v n s).O = v := rfl
@[simp] theorem writeRaw_OLEN (v : Word) (n : Nat) (s : State) : (writeRaw v n s).OLEN = BitVec.ofNat 3 n := rfl
@[simp] theorem writeRaw_FD (v : Word) (n : Nat) (s : State) : (writeRaw v n s).FD = s.FD := rfl
@[simp] theorem writeRaw_ST (v : Word) (n : Nat) (s : State) : (writeRaw v n s).ST = s.ST := rfl
@[simp] theorem writeRaw_pending (v : Word) (n : Nat) (s : State) : (writeRaw v n s).pending = s.pending := rfl

@[simp] theorem writeDesc_D (v : BitVec 16) (s : State) : (writeDesc v s).D = s.D := rfl
@[simp] theorem writeDesc_S (v : BitVec 16) (s : State) : (writeDesc v s).S = s.S := rfl
@[simp] theorem writeDesc_O (v : BitVec 16) (s : State) : (writeDesc v s).O = s.O := rfl
@[simp] theorem writeDesc_OLEN (v : BitVec 16) (s : State) : (writeDesc v s).OLEN = s.OLEN := rfl
@[simp] theorem writeDesc_FD (v : BitVec 16) (s : State) : (writeDesc v s).FD = v := rfl
@[simp] theorem writeDesc_ST (v : BitVec 16) (s : State) : (writeDesc v s).ST = s.ST := rfl
@[simp] theorem writeDesc_pending (v : BitVec 16) (s : State) : (writeDesc v s).pending = s.pending := rfl

@[simp] theorem raiseIllegal_D (s : State) : (raiseIllegal s).D = s.D := rfl
@[simp] theorem raiseIllegal_S (s : State) : (raiseIllegal s).S = s.S := rfl
@[simp] theorem raiseIllegal_O (s : State) : (raiseIllegal s).O = s.O := rfl
@[simp] theorem raiseIllegal_OLEN (s : State) : (raiseIllegal s).OLEN = s.OLEN := rfl
@[simp] theorem raiseIllegal_FD (s : State) : (raiseIllegal s).FD = s.FD := rfl
@[simp] theorem raiseIllegal_ST (s : State) : (raiseIllegal s).ST = 1#1 := rfl
@[simp] theorem raiseIllegal_pending (s : State) : (raiseIllegal s).pending = s.pending := rfl

@[simp] theorem applyReset_D (s : State) : (applyReset s).D = 0#32 := rfl
@[simp] theorem applyReset_S (s : State) : (applyReset s).S = 0#32 := rfl
@[simp] theorem applyReset_O (s : State) : (applyReset s).O = 0#32 := rfl
@[simp] theorem applyReset_OLEN (s : State) : (applyReset s).OLEN = 0#3 := rfl
@[simp] theorem applyReset_FD (s : State) : (applyReset s).FD = 0#16 := rfl
@[simp] theorem applyReset_ST (s : State) : (applyReset s).ST = 0#1 := rfl
@[simp] theorem applyReset_pending (s : State) : (applyReset s).pending = s.pending := rfl

/-- ST has one bit, so the flag is the register (R28). -/
theorem ill_iff_ST (s : State) : s.ill = true ↔ s.ST = 1#1 := by
  have h : ∀ b : BitVec 1, b.getLsbD 0 = true ↔ b = 1#1 := by decide
  exact h s.ST

theorem not_ill_iff_ST (s : State) : s.ill = false ↔ s.ST = 0#1 := by
  have h : ∀ b : BitVec 1, b.getLsbD 0 = false ↔ b = 0#1 := by decide
  exact h s.ST

end Sys2Proof.Machine
end

