-- ==== Sys2Proof/Laws/Exec.lean ====
section
/-! SUPPORT. Laws/Exec.lean: everything an instruction, a host event and a step can do, said once. -/

namespace Sys2Proof.Machine

/-- The four shapes of an instruction's effect: nothing, one pixel register, O with OLEN, FD (R35). -/
inductive Effect (s : State) : State → Prop where
  | none : Effect s s
  | reg (r : PixReg) (v : Word) : Effect s (writeReg r v s)
  | raw (r : PixReg) (t : PixelType) : Effect s (writeRaw (readReg r s &&& maskOf t) (lenOf t) s)
  | desc (t : PixelType) : Effect s (writeDesc (descriptor t) s)

/-- Every instruction answers a next state of one of the four shapes. -/
theorem exec_effect (i : Instr) (s : State) : ∃ t, exec i s = .next t ∧ Effect s t := by
  cases i with
  | nop => exact ⟨_, rfl, .none⟩
  | ld r imm => exact ⟨_, rfl, .reg r imm⟩
  | constGrayBlack r => exact ⟨_, rfl, .reg r _⟩
  | constGrayWhite r => exact ⟨_, rfl, .reg r _⟩
  | constRgbBlack r => exact ⟨_, rfl, .reg r _⟩
  | constRgbWhite r => exact ⟨_, rfl, .reg r _⟩
  | constRgbaBlack r => exact ⟨_, rfl, .reg r _⟩
  | constRgbaWhite r => exact ⟨_, rfl, .reg r _⟩
  | constRgbaTransparent r => exact ⟨_, rfl, .reg r _⟩
  | descGray => exact ⟨_, rfl, .desc .gray⟩
  | descRgb => exact ⟨_, rfl, .desc .rgb⟩
  | descRgba => exact ⟨_, rfl, .desc .rgba⟩
  | rawGray r => exact ⟨_, rfl, .raw r .gray⟩
  | rawRgb r => exact ⟨_, rfl, .raw r .rgb⟩
  | rawRgba r => exact ⟨_, rfl, .raw r .rgba⟩
  | cvtRgbaRgb r => exact ⟨_, rfl, .reg r _⟩
  | cvtRgbRgba r => exact ⟨_, rfl, .reg r _⟩
  | cvtGrayRgb r => exact ⟨_, rfl, .reg r _⟩
  | cvtRgbGray r => exact ⟨_, rfl, .reg r _⟩
  | cvtGrayRgba r => exact ⟨_, rfl, .reg r _⟩
  | cvtRgbaGray r => exact ⟨_, rfl, .reg r _⟩
  | ovdRgbRgb => exact ⟨_, rfl, .reg .D _⟩
  | ovdGrayRgb => exact ⟨_, rfl, .reg .D _⟩
  | ovdRgbRgba => exact ⟨_, rfl, .reg .D _⟩
  | ovdGrayRgba => exact ⟨_, rfl, .reg .D _⟩
  | ovdRgbGray => exact ⟨_, rfl, .reg .D _⟩
  | ovdGrayGray => exact ⟨_, rfl, .reg .D _⟩
  | ovdRgbaRgb => exact ⟨_, rfl, .reg .D _⟩
  | ovdRgbaRgba => exact ⟨_, rfl, .reg .D _⟩
  | ovdRgbaGray => exact ⟨_, rfl, .reg .D _⟩

/-- A state an instruction answers is one of the four shapes. -/
theorem effect_of_exec {i : Instr} {s t : State} (h : exec i s = .next t) : Effect s t := by
  obtain ⟨u, hu, he⟩ := exec_effect i s
  rw [hu] at h
  cases h
  exact he

/-- Every overdraw is R101's function on D. -/
theorem exec_ovd {i : Instr} {a d : PixelType} (h : i.form = .ovd a d) (s : State) :
    exec i s = .next (writeReg .D (overdraw a d s.S s.D) s) := by
  have hi := toInstr_form i
  rw [h] at hi
  cases a <;> cases d <;> cases hi <;> rfl

/-- What a step can have done: held the registers, run an instruction, raised the flag, or reset (R44, R120, R131, R140). -/
theorem step_cases {s t : State} (h : step s = .next t) :
    (s.pending = [] ∧ t = s) ∨
    (∃ W rest i, s.pending = .command W :: rest ∧ decode W = .ok i ∧ exec i { s with pending := rest } = .next t) ∨
    (∃ W rest c, s.pending = .command W :: rest ∧ decode W = .error c ∧
      t = raiseIllegal { s with pending := rest }) ∨
    (∃ lost rest, s.pending = .reset lost :: rest ∧ t = applyReset { s with pending := rest }) := by
  unfold step takeEvent at h
  split at h
  next hp => cases h; exact .inl ⟨hp, rfl⟩
  next e rest hp =>
    cases e with
    | reset lost => cases h; exact .inr (.inr (.inr ⟨lost, rest, hp, rfl⟩))
    | command W =>
      simp only [present, presentWord] at h
      split at h
      next i hd => exact .inr (.inl ⟨W, rest, i, hp, hd, h⟩)
      next c hd => cases h; exact .inr (.inr (.inl ⟨W, rest, c, hp, hd, rfl⟩))

/-- A waiting command word is presented to the state without it. -/
theorem step_command {s : State} {W : CommandWord} {rest : List HostEvent} (h : s.pending = .command W :: rest) :
    step s = presentWord W { s with pending := rest } := by
  unfold step takeEvent
  rw [h]
  rfl

/-- A presented word answers a next state. -/
theorem presentWord_next (W : CommandWord) (s : State) : ∃ t, presentWord W s = .next t := by
  unfold presentWord
  split
  next i _ => obtain ⟨t, ht, -⟩ := exec_effect i s; exact ⟨t, ht⟩
  next => exact ⟨_, rfl⟩

/-- No instruction looks at the events still to come: with others waiting it does the same. -/
theorem exec_pending {i : Instr} {s t : State} (q : List HostEvent) (h : exec i s = .next t) :
    exec i { s with pending := q } = .next { t with pending := q } := by
  have hw : ∀ (r : PixReg) (v : Word), writeReg r v { s with pending := q } = { writeReg r v s with pending := q } := by
    intro r v; cases r <;> rfl
  cases i <;> cases h <;> first | rfl | exact congrArg Host.Outcome.next (hw _ _)

/-- Presenting a word does the same whatever events wait behind it. -/
theorem presentWord_pending {W : CommandWord} {s t : State} (q : List HostEvent) (h : presentWord W s = .next t) :
    presentWord W { s with pending := q } = .next { t with pending := q } := by
  unfold presentWord at h ⊢
  split at h
  · exact exec_pending q h
  · cases h; rfl

/-- A run of no steps. -/
theorem run_zero (s : State) : Host.Core.run Sys2Proof.core 0 s = .next s := rfl

/-- A run that begins with a step that answers t goes on from t. -/
theorem run_succ {n : Nat} {s t : State} (h : step s = .next t) :
    Host.Core.run Sys2Proof.core (n + 1) s = Host.Core.run Sys2Proof.core n t := by
  have hc : Sys2Proof.core.step s = .next t := h
  refine (Host.Core.run.eq_2 Sys2Proof.core s n).trans ?_
  rw [hc]

/-- The word placed from outside is the one the next step presents. -/
theorem step_withFetchWord (s : State) (nbits w : Nat) :
    step (s.withFetchWord nbits w) = presentWord (tableWord nbits w) s := rfl

end Sys2Proof.Machine
end

