-- ==== Sys2Proof/Laws/Operands.lean ====
section
/-! SUPPORT. Laws/Operands.lean: lanes and packing, as numbers and against each other (R24, R25). -/

namespace Sys2Proof.Machine

/-- A lane as a number is the statements' channel. -/
theorem lane_toNat (p : Word) (i : Nat) : (lane p i).toNat = channel p i := by
  simp [lane, channel, BitVec.extractLsb'_toNat, Nat.shiftRight_eq_div_pow]

theorem channel_lt (p : Word) (i : Nat) : channel p i < 256 := Nat.mod_lt _ (by decide)

/-- A register value is the sum of its four lanes. -/
theorem word_toNat (p : Word) :
    p.toNat = channel p 0 + 256 * channel p 1 + 65536 * channel p 2 + 16777216 * channel p 3 := by
  have := p.isLt
  simp only [channel]
  omega

theorem pack1_toNat (a : Byte) : (pack1 a).toNat = a.toNat := by
  rw [pack1, BitVec.toNat_append]; simp

theorem pack4_toNat (a b c d : Byte) :
    (pack4 a b c d).toNat = a.toNat + 256 * b.toNat + 65536 * c.toNat + 16777216 * d.toNat := by
  have := a.isLt; have := b.isLt; have := c.isLt
  simp only [pack4, BitVec.toNat_append]
  rw [← Nat.shiftLeft_add_eq_or_of_lt a.isLt, ← Nat.shiftLeft_add_eq_or_of_lt b.isLt,
    ← Nat.shiftLeft_add_eq_or_of_lt c.isLt]
  simp only [Nat.shiftLeft_eq]
  omega

theorem pack3_toNat (a b c : Byte) :
    (pack3 a b c).toNat = a.toNat + 256 * b.toNat + 65536 * c.toNat := by
  have h := pack4_toNat a b c 0#8
  simpa [pack3, pack4] using h

@[simp] theorem lane0_pack1 (a : Byte) : lane (pack1 a) 0 = a := by
  apply BitVec.eq_of_toNat_eq
  have := a.isLt
  simp only [lane_toNat, channel, pack1_toNat]; omega

@[simp] theorem lane0_pack3 (a b c : Byte) : lane (pack3 a b c) 0 = a := by
  apply BitVec.eq_of_toNat_eq
  have := a.isLt; have := b.isLt; have := c.isLt
  simp only [lane_toNat, channel, pack3_toNat]; omega
@[simp] theorem lane1_pack3 (a b c : Byte) : lane (pack3 a b c) 1 = b := by
  apply BitVec.eq_of_toNat_eq
  have := a.isLt; have := b.isLt; have := c.isLt
  simp only [lane_toNat, channel, pack3_toNat]; omega
@[simp] theorem lane2_pack3 (a b c : Byte) : lane (pack3 a b c) 2 = c := by
  apply BitVec.eq_of_toNat_eq
  have := a.isLt; have := b.isLt; have := c.isLt
  simp only [lane_toNat, channel, pack3_toNat]; omega

@[simp] theorem lane0_pack4 (a b c d : Byte) : lane (pack4 a b c d) 0 = a := by
  apply BitVec.eq_of_toNat_eq
  have := a.isLt; have := b.isLt; have := c.isLt; have := d.isLt
  simp only [lane_toNat, channel, pack4_toNat]; omega
@[simp] theorem lane1_pack4 (a b c d : Byte) : lane (pack4 a b c d) 1 = b := by
  apply BitVec.eq_of_toNat_eq
  have := a.isLt; have := b.isLt; have := c.isLt; have := d.isLt
  simp only [lane_toNat, channel, pack4_toNat]; omega
@[simp] theorem lane2_pack4 (a b c d : Byte) : lane (pack4 a b c d) 2 = c := by
  apply BitVec.eq_of_toNat_eq
  have := a.isLt; have := b.isLt; have := c.isLt; have := d.isLt
  simp only [lane_toNat, channel, pack4_toNat]; omega
@[simp] theorem lane3_pack4 (a b c d : Byte) : lane (pack4 a b c d) 3 = d := by
  apply BitVec.eq_of_toNat_eq
  have := a.isLt; have := b.isLt; have := c.isLt; have := d.isLt
  simp only [lane_toNat, channel, pack4_toNat]; omega

/-- A register value is the packing of its lanes. -/
theorem pack4_lanes (p : Word) : pack4 (lane p 0) (lane p 1) (lane p 2) (lane p 3) = p := by
  apply BitVec.eq_of_toNat_eq
  rw [pack4_toNat, word_toNat p]
  simp only [lane_toNat]

theorem and_maskOf_toNat (t : PixelType) (p : Word) : (p &&& maskOf t).toNat = p.toNat % 2 ^ (8 * lenOf t) := by
  have h := p.isLt
  cases t
  · rw [BitVec.toNat_and]; exact Nat.and_two_pow_sub_one_eq_mod p.toNat 8
  · rw [BitVec.toNat_and]; exact Nat.and_two_pow_sub_one_eq_mod p.toNat 24
  · rw [BitVec.toNat_and]; exact Nat.and_two_pow_sub_one_eq_mod p.toNat 32

/-- Masking to GRAY keeps lane 0. -/
theorem and_mask_gray (p : Word) : p &&& 0x000000FF#32 = pack1 (lane p 0) := by
  apply BitVec.eq_of_toNat_eq
  have h := and_maskOf_toNat .gray p
  simp only [maskOf, lenOf] at h
  rw [h, pack1_toNat, lane_toNat]; simp only [channel]; omega

/-- Masking to RGB keeps lanes 0 to 2. -/
theorem and_mask_rgb (p : Word) : p &&& 0x00FFFFFF#32 = pack3 (lane p 0) (lane p 1) (lane p 2) := by
  apply BitVec.eq_of_toNat_eq
  have h := and_maskOf_toNat .rgb p
  simp only [maskOf, lenOf] at h
  rw [h, pack3_toNat]; simp only [lane_toNat, channel]; omega

/-- Masking to RGBA keeps everything. -/
theorem and_mask_rgba (p : Word) : p &&& 0xFFFFFFFF#32 = p := by
  apply BitVec.eq_of_toNat_eq
  have h := and_maskOf_toNat .rgba p
  simp only [maskOf, lenOf] at h
  rw [h]; exact Nat.mod_eq_of_lt p.isLt

/-- A lane below the length of the type survives masking; one at or above it is 0. -/
theorem lane_and_maskOf (t : PixelType) (p : Word) (i : Nat) :
    lane (p &&& maskOf t) i = if i < lenOf t then lane p i else 0#8 := by
  apply BitVec.eq_of_toNat_eq
  have hp := p.isLt
  rw [lane_toNat, channel, and_maskOf_toNat]
  split
  next h =>
    rw [lane_toNat, channel]
    cases t <;> simp only [lenOf] at h ⊢
    · interval_cases i; omega
    · interval_cases i <;> omega
    · interval_cases i <;> omega
  next h =>
    have : p.toNat % 2 ^ (8 * lenOf t) < 2 ^ (8 * i) :=
      lt_of_lt_of_le (Nat.mod_lt _ (by positivity)) (Nat.pow_le_pow_right (by decide) (by omega))
    simp [Nat.div_eq_of_lt this]

end Sys2Proof.Machine
end

