-- ==== Sys2Proof/Laws/PerInstr.lean ====
section
/-! SUPPORT. Laws/PerInstr.lean: facts stated once per instruction, one lemma per constructor.
EncodesAsTable: an instruction is well-formed, and its word agrees with its row of opcode_table.json under the row's
mask (R57, R63). -/

namespace Sys2Proof.Laws.EncodesAsTable

/-- The row's match and mask, copied from opcode_table.json. -/
def tableRow : Instr → CommandWord × CommandWord
  | .nop => (0x0000000000#40, 0xFF00000000#40)
  | .ld _ _ => (0x2000000000#40, 0xFE00000000#40)
  | .constGrayBlack _ => (0xC000000000#40, 0xFE00000000#40)
  | .constGrayWhite _ => (0xC200000000#40, 0xFE00000000#40)
  | .constRgbBlack _ => (0xC800000000#40, 0xFE00000000#40)
  | .constRgbWhite _ => (0xCA00000000#40, 0xFE00000000#40)
  | .constRgbaBlack _ => (0xD000000000#40, 0xFE00000000#40)
  | .constRgbaWhite _ => (0xD200000000#40, 0xFE00000000#40)
  | .constRgbaTransparent _ => (0xD400000000#40, 0xFE00000000#40)
  | .descGray => (0x4000000000#40, 0xFF00000000#40)
  | .descRgb => (0x4800000000#40, 0xFF00000000#40)
  | .descRgba => (0x5000000000#40, 0xFF00000000#40)
  | .rawGray _ => (0x6000000000#40, 0xFE00000000#40)
  | .rawRgb _ => (0x6800000000#40, 0xFE00000000#40)
  | .rawRgba _ => (0x7000000000#40, 0xFE00000000#40)
  | .cvtRgbaRgb _ => (0x9200000000#40, 0xFE00000000#40)
  | .cvtRgbRgba _ => (0x8C00000000#40, 0xFE00000000#40)
  | .cvtGrayRgb _ => (0x8200000000#40, 0xFE00000000#40)
  | .cvtRgbGray _ => (0x8800000000#40, 0xFE00000000#40)
  | .cvtGrayRgba _ => (0x8400000000#40, 0xFE00000000#40)
  | .cvtRgbaGray _ => (0x9000000000#40, 0xFE00000000#40)
  | .ovdRgbRgb => (0xAA00000000#40, 0xFF00000000#40)
  | .ovdGrayRgb => (0xA200000000#40, 0xFF00000000#40)
  | .ovdRgbRgba => (0xAC00000000#40, 0xFF00000000#40)
  | .ovdGrayRgba => (0xA400000000#40, 0xFF00000000#40)
  | .ovdRgbGray => (0xA800000000#40, 0xFF00000000#40)
  | .ovdGrayGray => (0xA000000000#40, 0xFF00000000#40)
  | .ovdRgbaRgb => (0xB200000000#40, 0xFF00000000#40)
  | .ovdRgbaRgba => (0xB400000000#40, 0xFF00000000#40)
  | .ovdRgbaGray => (0xB000000000#40, 0xFF00000000#40)

def Statement (i : Instr) : Prop := i.wf = true ∧ encode i &&& (tableRow i).2 = (tableRow i).1

theorem nop : Statement .nop := ⟨rfl, by decide⟩
theorem ld (r : PixReg) (imm : Word) : Statement (.ld r imm) := by
  refine ⟨rfl, ?_⟩
  have mask : (0xFE00000000#40 : CommandWord) = (0xFE#8 : Header) ++ (0#32 : Word) := by decide
  have row : (0x2000000000#40 : CommandWord) = (0x20#8 : Header) ++ (0#32 : Word) := by decide
  have head : (Form.ld r imm).header &&& 0xFE#8 = 0x20#8 := by
    have h : ∀ c : BitVec 1, (1#3 ++ 0#2 ++ 0#2 ++ c : BitVec 8) &&& 0xFE#8 = 0x20#8 := by decide
    exact h (regCode r)
  simp only [tableRow, encode]
  rw [mask, row, BitVec.and_append, BitVec.and_zero]
  exact congrArg (· ++ (0#32 : Word)) head
theorem constGrayBlack (r : PixReg) : Statement (.constGrayBlack r) := ⟨rfl, by cases r <;> decide⟩
theorem constGrayWhite (r : PixReg) : Statement (.constGrayWhite r) := ⟨rfl, by cases r <;> decide⟩
theorem constRgbBlack (r : PixReg) : Statement (.constRgbBlack r) := ⟨rfl, by cases r <;> decide⟩
theorem constRgbWhite (r : PixReg) : Statement (.constRgbWhite r) := ⟨rfl, by cases r <;> decide⟩
theorem constRgbaBlack (r : PixReg) : Statement (.constRgbaBlack r) := ⟨rfl, by cases r <;> decide⟩
theorem constRgbaWhite (r : PixReg) : Statement (.constRgbaWhite r) := ⟨rfl, by cases r <;> decide⟩
theorem constRgbaTransparent (r : PixReg) : Statement (.constRgbaTransparent r) := ⟨rfl, by cases r <;> decide⟩
theorem descGray : Statement .descGray := ⟨rfl, by decide⟩
theorem descRgb : Statement .descRgb := ⟨rfl, by decide⟩
theorem descRgba : Statement .descRgba := ⟨rfl, by decide⟩
theorem rawGray (r : PixReg) : Statement (.rawGray r) := ⟨rfl, by cases r <;> decide⟩
theorem rawRgb (r : PixReg) : Statement (.rawRgb r) := ⟨rfl, by cases r <;> decide⟩
theorem rawRgba (r : PixReg) : Statement (.rawRgba r) := ⟨rfl, by cases r <;> decide⟩
theorem cvtRgbaRgb (r : PixReg) : Statement (.cvtRgbaRgb r) := ⟨rfl, by cases r <;> decide⟩
theorem cvtRgbRgba (r : PixReg) : Statement (.cvtRgbRgba r) := ⟨rfl, by cases r <;> decide⟩
theorem cvtGrayRgb (r : PixReg) : Statement (.cvtGrayRgb r) := ⟨rfl, by cases r <;> decide⟩
theorem cvtRgbGray (r : PixReg) : Statement (.cvtRgbGray r) := ⟨rfl, by cases r <;> decide⟩
theorem cvtGrayRgba (r : PixReg) : Statement (.cvtGrayRgba r) := ⟨rfl, by cases r <;> decide⟩
theorem cvtRgbaGray (r : PixReg) : Statement (.cvtRgbaGray r) := ⟨rfl, by cases r <;> decide⟩
theorem ovdRgbRgb : Statement .ovdRgbRgb := ⟨rfl, by decide⟩
theorem ovdGrayRgb : Statement .ovdGrayRgb := ⟨rfl, by decide⟩
theorem ovdRgbRgba : Statement .ovdRgbRgba := ⟨rfl, by decide⟩
theorem ovdGrayRgba : Statement .ovdGrayRgba := ⟨rfl, by decide⟩
theorem ovdRgbGray : Statement .ovdRgbGray := ⟨rfl, by decide⟩
theorem ovdGrayGray : Statement .ovdGrayGray := ⟨rfl, by decide⟩
theorem ovdRgbaRgb : Statement .ovdRgbaRgb := ⟨rfl, by decide⟩
theorem ovdRgbaRgba : Statement .ovdRgbaRgba := ⟨rfl, by decide⟩
theorem ovdRgbaGray : Statement .ovdRgbaGray := ⟨rfl, by decide⟩

end Sys2Proof.Laws.EncodesAsTable
end

