-- ==== Sys2Proof/Tests/Slice0.lean ====
section
/-! SUPPORT. Tests/Slice0.lean: the WellFormed smoke, decoding of written-out words, single steps on the vectors of
95_test_vectors.md (none of them a run of hardware, that file says), and a witness for every statement's hypotheses. -/

namespace Sys2Proof.Tests

open Sys2Proof Sys2Proof.Machine

/-! ### Helpers -/

/-- The state an outcome answers, if it answers one. -/
def stateOf (o : Host.Outcome State Fault Refusal) : Option State :=
  match o with
  | .next t => some t
  | .fault _ => none
  | .refused _ => none

/-- Reset, but for the two pixel registers. -/
def withPixels (D S : Word) : State := { State.reset with D := D, S := S }

/-- The start state of sections 2.5 and 2.9 of 95_test_vectors.md. -/
def busy : State :=
  { D := 0x11111111#32, S := 0x22222222#32, O := 0x33333333#32, OLEN := 4#3, FD := 0x0482#16, ST := 0#1, pending := [] }

/-- One step on a command word. -/
def stepOn (W : CommandWord) (s : State) : Option State := stateOf (step (presentNext W s))

/-- D and S after one step on a command word. -/
def pixelsAfter (W : CommandWord) (D S : Word) : Option (Word × Word) :=
  (stepOn W (withPixels D S)).map fun t => (t.D, t.S)

/-- D after one step on an overdraw word, where S is unchanged. -/
def overdrawn (W : CommandWord) (S D : Word) : Option Word :=
  (stepOn W (withPixels D S)).bind fun t => if t.S = S then some t.D else none

/-- O, OLEN, FD and the bytes shown after one step from the start state of section 2.6. -/
def shown (W : CommandWord) : Option (Word × BitVec 3 × BitVec 16 × List Byte) :=
  (stepOn W (withPixels 0x44332211#32 0x88776655#32)).map fun t => (t.O, t.OLEN, t.FD, rawBytes t)

/-- The name a decoder rejects a word by. -/
def causeOf (W : CommandWord) : Option IllegalCause :=
  match decode W with
  | .ok _ => none
  | .error c => some c

/-! ### WellFormed smoke: one ill-formed term per check -/

theorem test_wf_cvt_equal_types :
    (Form.cvt .D .gray .gray).wf = false ∧ (Form.cvt .S .rgb .rgb).wf = false ∧ (Form.cvt .D .rgba .rgba).wf = false := by
  decide

theorem test_wf_const_absent :
    (Form.const .D .gray .transparent).wf = false ∧ (Form.const .S .rgb .transparent).wf = false := by decide

theorem test_wf_cvtovd_equal_types :
    (Pseudo.cvtovd .gray .gray).wf = false ∧ (Pseudo.cvtovd .rgb .rgb).wf = false ∧
    (Pseudo.cvtovd .rgba .rgba).wf = false := by decide

theorem test_wf_accepts : (Form.cvt .S .rgba .gray).wf = true ∧ (Form.const .D .rgba .transparent).wf = true ∧
    (Form.ovd .gray .gray).wf = true ∧ (Pseudo.cvtovd .rgba .gray).wf = true := by decide

/-! ### Decoding: words written out bit by bit, fields op st dt r, then IMM (R51 to R54) -/

theorem test_decode_nop_ld :
    decode (0b000_00_00_0#8 ++ 0xFFFFFFFF#32) = .ok .nop ∧
    decode (0b001_00_00_0#8 ++ 0xDEADBEEF#32) = .ok (.ld .D 0xDEADBEEF#32) ∧
    decode (0b001_00_00_1#8 ++ 0x80C89664#32) = .ok (.ld .S 0x80C89664#32) := by decide

theorem test_decode_desc_raw :
    decode (0b010_00_00_0#8 ++ 0#32) = .ok .descGray ∧ decode (0b010_01_00_0#8 ++ 0#32) = .ok .descRgb ∧
    decode (0b010_10_00_0#8 ++ 0#32) = .ok .descRgba ∧ decode (0b011_00_00_1#8 ++ 0#32) = .ok (.rawGray .S) ∧
    decode (0b011_01_00_0#8 ++ 0#32) = .ok (.rawRgb .D) ∧ decode (0b011_10_00_1#8 ++ 0#32) = .ok (.rawRgba .S) := by
  decide

theorem test_decode_cvt :
    decode (0b100_10_01_1#8 ++ 0#32) = .ok (.cvtRgbaRgb .S) ∧ decode (0b100_01_10_0#8 ++ 0#32) = .ok (.cvtRgbRgba .D) ∧
    decode (0b100_00_01_1#8 ++ 0#32) = .ok (.cvtGrayRgb .S) ∧ decode (0b100_01_00_0#8 ++ 0#32) = .ok (.cvtRgbGray .D) ∧
    decode (0b100_00_10_1#8 ++ 0#32) = .ok (.cvtGrayRgba .S) ∧ decode (0b100_10_00_0#8 ++ 0#32) = .ok (.cvtRgbaGray .D) := by
  decide

theorem test_decode_ovd :
    decode (0b101_01_01_0#8 ++ 0#32) = .ok .ovdRgbRgb ∧ decode (0b101_00_01_0#8 ++ 0#32) = .ok .ovdGrayRgb ∧
    decode (0b101_01_10_0#8 ++ 0#32) = .ok .ovdRgbRgba ∧ decode (0b101_00_10_0#8 ++ 0#32) = .ok .ovdGrayRgba ∧
    decode (0b101_01_00_0#8 ++ 0#32) = .ok .ovdRgbGray ∧ decode (0b101_00_00_0#8 ++ 0#32) = .ok .ovdGrayGray ∧
    decode (0b101_10_01_0#8 ++ 0xDEADBEEF#32) = .ok .ovdRgbaRgb ∧ decode (0b101_10_10_0#8 ++ 0#32) = .ok .ovdRgbaRgba ∧
    decode (0b101_10_00_0#8 ++ 0#32) = .ok .ovdRgbaGray := by decide

theorem test_decode_const :
    decode (0b110_00_00_0#8 ++ 0#32) = .ok (.constGrayBlack .D) ∧
    decode (0b110_00_01_1#8 ++ 0#32) = .ok (.constGrayWhite .S) ∧
    decode (0b110_01_00_0#8 ++ 0#32) = .ok (.constRgbBlack .D) ∧
    decode (0b110_01_01_1#8 ++ 0#32) = .ok (.constRgbWhite .S) ∧
    decode (0b110_10_00_0#8 ++ 0#32) = .ok (.constRgbaBlack .D) ∧
    decode (0b110_10_01_1#8 ++ 0#32) = .ok (.constRgbaWhite .S) ∧
    decode (0b110_10_10_0#8 ++ 0#32) = .ok (.constRgbaTransparent .D) := by decide

/-- The illegal neighbours of section 2.4, by the row of R61 that names each. -/
theorem test_decode_illegal :
    [0x01, 0x10].map (fun H => causeOf (BitVec.ofNat 8 H ++ 0#32)) = List.replicate 2 (some .nopWithOtherBits) ∧
    [0x22, 0x28].map (fun H => causeOf (BitVec.ofNat 8 H ++ 0#32)) = List.replicate 2 (some .ldFields) ∧
    [0x41, 0x42, 0x58].map (fun H => causeOf (BitVec.ofNat 8 H ++ 0#32)) = List.replicate 3 (some .descFields) ∧
    [0x62, 0x78].map (fun H => causeOf (BitVec.ofNat 8 H ++ 0#32)) = List.replicate 2 (some .rawFields) ∧
    [0x80, 0x86, 0x8A, 0x94, 0x98].map (fun H => causeOf (BitVec.ofNat 8 H ++ 0#32)) =
      List.replicate 5 (some .cvtPair) ∧
    [0xA1, 0xA6, 0xB5, 0xB6, 0xB8].map (fun H => causeOf (BitVec.ofNat 8 H ++ 0#32)) =
      List.replicate 5 (some .ovdFields) ∧
    [0xC4, 0xCC, 0xCE, 0xD6, 0xD8].map (fun H => causeOf (BitVec.ofNat 8 H ++ 0#32)) =
      List.replicate 5 (some .constPair) ∧
    [0xE0, 0xFF].map (fun H => causeOf (BitVec.ofNat 8 H ++ 0#32)) = List.replicate 2 (some .reservedOp) := by decide

/-- Words of opcode_table.json as the host numbers them; bits at and above nbits do not count. -/
theorem test_decode_table_word :
    decodeTableWord 40 0xB200000000 = some .ovdRgbaRgb ∧ decodeTableWord 40 0x2112345678 = some (.ld .S 0x12345678#32) ∧
    decodeTableWord 40 0x8000000000 = none ∧ decodeTableWord 8 0xFF = some .nop := by decide

theorem test_encode_words :
    encode (.ld .S 0x80C89664#32) = 0x2180C89664#40 ∧ encode .ovdRgbaRgb = 0xB200000000#40 ∧
    encode (.constRgbWhite .D) = 0xCA00000000#40 ∧ encode (.rawRgb .D) = 0x6800000000#40 := by decide

/-! ### Single steps: section 2.5 -/

theorem test_nop : stepOn 0x00FFFFFFFF#40 busy = some busy := by decide
theorem test_ld_d : stepOn 0x20DEADBEEF#40 busy = some { busy with D := 0xDEADBEEF#32 } := by decide
theorem test_ld_s : stepOn 0x21FFFFFFFF#40 busy = some { busy with S := 0xFFFFFFFF#32 } := by decide
theorem test_const_gray_black : stepOn 0xC000000000#40 busy = some { busy with D := 0#32 } := by decide
theorem test_const_gray_white : stepOn 0xC300000000#40 busy = some { busy with S := 0x000000FF#32 } := by decide
theorem test_const_rgb_black : stepOn 0xC800000000#40 busy = some { busy with D := 0#32 } := by decide
theorem test_const_rgb_white : stepOn 0xCB00000000#40 busy = some { busy with S := 0x00FFFFFF#32 } := by decide
theorem test_const_rgba_black : stepOn 0xD000000000#40 busy = some { busy with D := 0xFF000000#32 } := by decide
theorem test_const_rgba_white : stepOn 0xD300000000#40 busy = some { busy with S := 0xFFFFFFFF#32 } := by decide
theorem test_const_transparent : stepOn 0xD500000000#40 busy = some { busy with S := 0#32 } := by decide

/-! ### Single steps: section 2.6 -/

theorem test_desc_gray : shown 0x4000000000#40 = some (0#32, 0#3, 0x0180#16, []) := by decide
theorem test_desc_rgb : shown 0x4800000000#40 = some (0#32, 0#3, 0x0381#16, []) := by decide
theorem test_desc_rgba : shown 0x5000000000#40 = some (0#32, 0#3, 0x0482#16, []) := by decide
theorem test_raw_gray : shown 0x6100000000#40 = some (0x55#32, 1#3, 0#16, [0x55#8]) := by decide
theorem test_raw_rgb : shown 0x6800000000#40 = some (0x332211#32, 3#3, 0#16, [0x11#8, 0x22#8, 0x33#8]) := by decide
theorem test_raw_rgba :
    shown 0x7100000000#40 = some (0x88776655#32, 4#3, 0#16, [0x55#8, 0x66#8, 0x77#8, 0x88#8]) := by decide

/-! ### Single steps: section 2.7 -/

theorem test_cvt_rgba_rgb : pixelsAfter 0x9300000000#40 7#32 0x80C89664#32 = some (7#32, 0x00C89664#32) := by decide
theorem test_cvt_rgb_rgba : pixelsAfter 0x8C00000000#40 0x77030201#32 7#32 = some (0xFF030201#32, 7#32) := by decide
theorem test_cvt_gray_rgb : pixelsAfter 0x8300000000#40 7#32 0x123456FF#32 = some (7#32, 0x00FFFFFF#32) := by decide
theorem test_cvt_rgb_gray : pixelsAfter 0x8900000000#40 7#32 0x00FEFFFF#32 = some (7#32, 0x000000FE#32) := by decide
theorem test_cvt_rgb_gray_low : pixelsAfter 0x8800000000#40 0xAA000101#32 7#32 = some (0#32, 7#32) := by decide
theorem test_cvt_gray_rgba : pixelsAfter 0x8400000000#40 0xFFFFFF00#32 7#32 = some (0xFF000000#32, 7#32) := by decide
theorem test_cvt_rgba_gray : pixelsAfter 0x9100000000#40 7#32 0x80C89664#32 = some (7#32, 0x00000096#32) := by decide

/-! ### Single steps: section 2.8 -/

theorem test_ovd_rgb_rgb : overdrawn 0xAA00000000#40 0x99000000#32 0xEE123456#32 = some 0#32 := by decide
theorem test_ovd_gray_rgb : overdrawn 0xA200000000#40 0x000000C8#32 0x001E140A#32 = some 0x00C8C8C8#32 := by decide
theorem test_ovd_rgb_rgba : overdrawn 0xAC00000000#40 0x001E140A#32 0x07030201#32 = some 0xFF1E140A#32 := by decide
theorem test_ovd_gray_rgba : overdrawn 0xA400000000#40 0x000000C8#32 0#32 = some 0xFFC8C8C8#32 := by decide
theorem test_ovd_rgb_gray : overdrawn 0xA800000000#40 0x001E140A#32 0x000000FF#32 = some 0x00000014#32 := by decide
theorem test_ovd_gray_gray : overdrawn 0xA000000000#40 0xFFFFFF00#32 0xFFFFFFFF#32 = some 0#32 := by decide
theorem test_ovd_rgba_rgb_down : overdrawn 0xB200000000#40 0x80C89664#32 0xAAC8C8C8#32 = some 0x00C8AF96#32 := by decide
theorem test_ovd_rgba_rgb_toward_zero : overdrawn 0xB200000000#40 0xFE0A0A0A#32 0x000B0B0B#32 = some 0x000B0B0B#32 := by
  decide
theorem test_ovd_rgba_rgba : overdrawn 0xB400000000#40 0x400064C8#32 0xFF32C864#32 = some 0x8026AF7D#32 := by decide
theorem test_ovd_rgba_rgba_saturates : overdrawn 0xB400000000#40 0x80C89664#32 0x0A323232#32 = some 0xFF7D644B#32 := by
  decide
theorem test_ovd_rgba_gray : overdrawn 0xB000000000#40 0x80C89664#32 0x000000C8#32 = some 0x000000AF#32 := by decide
theorem test_ovd_rgba_gray_low : overdrawn 0xB000000000#40 0x40FF0000#32 0xFFFFFF00#32 = some 0x00000015#32 := by decide

/-! ### Illegal commands (section 2.9), reset, input -/

theorem test_illegal_sets_flag : stepOn 0x80CAFEF00D#40 busy = some { busy with ST := 1#1 } := by decide
theorem test_flag_is_sticky : (stepOn 0xAA00000000#40 { busy with ST := 1#1 }).map State.ill = some true := by decide
theorem test_reset_event : stateOf (step { busy with ST := 1#1, pending := [.reset (some 0x2000000001#40)] }) =
    some State.reset := by decide
theorem test_idle : stateOf (step busy) = some busy := by decide
theorem test_first_step_after_reset :
    stateOf (step (State.reset.withFetchWord 40 0x20DEADBEEF)) = some { State.reset with D := 0xDEADBEEF#32 } := by decide

/-! ### Pseudo-instructions, assembler, instances, observation -/

/-- Section 3, P3b: the two commands of CVTOVD RGBA, GRAY. -/
theorem test_cvtovd : Pseudo.expand (.cvtovd .rgba .gray) = some [.cvtRgbaGray .S, .ovdGrayGray] := by decide

theorem test_assemble_lanes :
    assembleLine ['L', 'D', ' ', 'S', ',', ' ', '#', Char.ofNat 123, '1', ',', '2', ',', '3', Char.ofNat 125] =
      some [0x2100030201#40] ∧
    assembleLine "LD D, #0x100000000".toList = none ∧ assembleLine "NOP ; nothing".toList = some [0#40] := by decide

theorem test_other_instance_untouched :
    (match stepInstance 1 [busy, presentNext 0x8000000000#40 busy] with
      | .next sys => some sys
      | .fault _ => none
      | .refused _ => none) = some [busy, { busy with ST := 1#1 }] := by decide

/-- At time 5 with latency 3 the command accepted at 2 shows and the one accepted at 3 does not. -/
theorem test_observation_prefix :
    visibleBy 3 5 [(2, 0x4000000000#40), (3, 0x4800000000#40)] = [0x4000000000#40] := by decide

/-! ### Witnesses: for each statement with hypotheses, states and operands that meet them all -/

theorem witness_ResetEventClearsEveryRegister :
    (∃ s : State, ∃ rest, s.pending = .reset none :: rest) ∧
    (∃ s : State, ∃ W rest, s.pending = .reset (some W) :: rest) ∧
    (∃ s : State, ∃ W lost rest, s.pending = .command W :: .reset lost :: rest) ∧
    (∃ s t : State, s.ill = true ∧ step s = .next t ∧ t.ill = false) :=
  ⟨⟨{ busy with pending := [.reset none] }, _, rfl⟩, ⟨{ busy with pending := [.reset (some 1#40), .reset none] }, _, _, rfl⟩,
    ⟨{ busy with pending := [.command 0x8000000000#40, .reset none] }, _, _, _, rfl⟩,
    ⟨{ busy with ST := 1#1, pending := [.reset none] }, State.reset, rfl, rfl, rfl⟩⟩

theorem witness_DecodeInvertsEncode :
    (Instr.ld .S 0xFFFFFFFF#32).form.usesImm = true ∧ decode 0x21FFFFFFFF#40 = .ok (.ld .S 0xFFFFFFFF#32) ∧
    Instr.ovdRgbaRgb.form.usesImm = false ∧ decode 0xB2DEADBEEF#40 = .ok .ovdRgbaRgb := by decide

theorem witness_HeadersAddUpFromTheirFields : Instr.nop.form.usesImm = false := rfl

/-- The first and the last header of every row of R61's table. -/
theorem witness_IllegalHeadersByCause :
    [0x01, 0x1F, 0x22, 0x3F, 0x41, 0x47, 0x49, 0x4F, 0x51, 0x5F].map (fun H => causeOf (BitVec.ofNat 8 H ++ 0#32)) =
      [some .nopWithOtherBits, some .nopWithOtherBits, some .ldFields, some .ldFields, some .descFields, some .descFields,
        some .descFields, some .descFields, some .descFields, some .descFields] ∧
    [0x62, 0x67, 0x6A, 0x6F, 0x72, 0x7F, 0x80, 0x97, 0x98, 0x9F].map (fun H => causeOf (BitVec.ofNat 8 H ++ 0#32)) =
      [some .rawFields, some .rawFields, some .rawFields, some .rawFields, some .rawFields, some .rawFields,
        some .cvtPair, some .cvtPair, some .cvtPair, some .cvtPair] ∧
    [0xA1, 0xBF, 0xC4, 0xD7, 0xD8, 0xDF, 0xE0, 0xFF].map (fun H => causeOf (BitVec.ofNat 8 H ++ 0#32)) =
      [some .ovdFields, some .ovdFields, some .constPair, some .constPair, some .constPair, some .constPair,
        some .reservedOp, some .reservedOp] := by decide

theorem witness_StepRunsTheDecodedInstruction :
    (∃ s : State, ∃ W rest i, s.pending = .command W :: rest ∧ decode W = .ok i) ∧ busy.pending = [] :=
  ⟨⟨presentNext 0xA000000000#40 busy, _, _, .ovdGrayGray, rfl, rfl⟩, rfl⟩

theorem witness_IllegalCommandSetsOnlyTheStickyFlag :
    (∃ s : State, ∃ W rest c, s.pending = .command W :: rest ∧ decode W = .error c ∧ s.ill = true) ∧
    legalWord (0xFF#8 ++ 0xFFFFFFFF#32) = false ∧
    (∃ s t : State, ∃ W rest, s.pending = .command W :: rest ∧ s.ill = true ∧ step s = .next t) :=
  ⟨⟨presentNext 0x0100000000#40 { busy with ST := 1#1 }, _, _, .nopWithOtherBits, rfl, rfl, rfl⟩, by decide,
    ⟨presentNext 0xAA00000000#40 { busy with ST := 1#1 }, _, _, _, rfl, rfl, rfl⟩⟩

/-- A list with an illegal word, and one without. -/
theorem witness_RunGoesWrongExactlyOnAnIllegalWord :
    busy.ill = false ∧ [0x0000000000#40, 0x8A12345678#40].map legalWord = [true, false] ∧
    [0x0000000000#40, 0xB400000000#40].map legalWord = [true, true] := by decide

theorem witness_StreamsMayBeCutAnywhere :
    ∃ t : State, Host.Core.run Sys2Proof.core [0x20DEADBEEF#40, 0x8000000000#40].length
      (presentAll [0x20DEADBEEF#40, 0x8000000000#40] busy) = .next t :=
  ⟨{ busy with D := 0xDEADBEEF#32, ST := 1#1 }, rfl⟩

/-- The largest output: four bytes, all ones. -/
theorem witness_OutputsStayLegal :
    ∃ s t : State, outputsLegal s = true ∧ step s = .next t ∧ outputsLegal { s with O := 0xFFFFFFFF#32 } = true :=
  ⟨presentNext 0x6900000000#40 busy, _, by decide, rfl, by decide⟩

/-- An instruction of each shape: a pixel register, O with OLEN, FD, nothing. -/
theorem witness_InstructionsWriteOnlyTheirRow :
    (∃ t, exec .ovdRgbaGray busy = .next t) ∧ (regUse Instr.ovdRgbaGray.form).writesS = false ∧
    (∃ t, exec (.rawRgb .D) busy = .next t) ∧ (regUse (Instr.rawRgb .D).form).writesD = false ∧
    (∃ t, exec .descRgb busy = .next t) ∧ (regUse Instr.descRgb.form).writesO = false ∧
    (∃ t, exec .nop busy = .next t) ∧ (regUse Instr.nop.form).writesFD = false :=
  ⟨⟨_, rfl⟩, rfl, ⟨_, rfl⟩, rfl, ⟨_, rfl⟩, rfl, ⟨_, rfl⟩, rfl⟩

/-- Two different states that no read of the instruction can tell apart, for each written register. -/
theorem witness_ResultsDependOnlyOnTheLanesRead :
    (sameAs (regUse Instr.ovdRgbaGray.form).readsD 0x000000FF#32 0xFFFFFFFF#32 = true ∧
      sameAs (regUse Instr.ovdRgbaGray.form).readsS 0x80C89664#32 0x80C89664#32 = true ∧
      (regUse Instr.ovdRgbaGray.form).writesD = true ∧ ∃ t, exec .ovdRgbaGray busy = .next t) ∧
    (sameAs (regUse (Instr.cvtRgbGray .S).form).readsD 1#32 2#32 = true ∧
      sameAs (regUse (Instr.cvtRgbGray .S).form).readsS 0x00FFFFFF#32 0xFFFFFFFF#32 = true ∧
      (regUse (Instr.cvtRgbGray .S).form).writesS = true ∧ ∃ t, exec (.cvtRgbGray .S) busy = .next t) ∧
    (sameAs (regUse (Instr.rawRgb .D).form).readsD 0x00FFFFFF#32 0xFFFFFFFF#32 = true ∧
      (regUse (Instr.rawRgb .D).form).writesO = true ∧ ∃ t, exec (.rawRgb .D) busy = .next t) ∧
    (sameAs (regUse Instr.descGray.form).readsD 1#32 2#32 = true ∧
      (regUse Instr.descGray.form).writesFD = true ∧ ∃ t, exec .descGray busy = .next t) :=
  ⟨⟨by decide, by decide, rfl, _, rfl⟩, ⟨by decide, by decide, rfl, _, rfl⟩, ⟨by decide, rfl, _, rfl⟩,
    ⟨by decide, rfl, _, rfl⟩⟩

/-- The lowest lane above a GRAY pixel and the only one above an RGB pixel. -/
theorem witness_ComputedPixelsAreCanonical :
    (computes (Instr.cvtRgbaGray .S).form = some (.S, .gray) ∧ (∃ t, exec (.cvtRgbaGray .S) busy = .next t) ∧
      1 < 4 ∧ lenOf .gray ≤ 1) ∧
    (computes Instr.ovdRgbaRgb.form = some (.D, .rgb) ∧ (∃ t, exec .ovdRgbaRgb busy = .next t) ∧ 3 < 4 ∧ lenOf .rgb ≤ 3) :=
  ⟨⟨rfl, ⟨_, rfl⟩, by decide, by decide⟩, ⟨rfl, ⟨_, rfl⟩, by decide, by decide⟩⟩

/-- A legal and an illegal header that are not LD's. -/
theorem witness_ImmediateIsIgnoredByAllButLd :
    (0xB2#8).extractLsb' 5 3 ≠ 1#3 ∧ legalWord (0xB2#8 ++ 0#32) = true ∧
    (0xFF#8).extractLsb' 5 3 ≠ 1#3 ∧ legalWord (0xFF#8 ++ 0#32) = false := by decide

theorem witness_NopChangesNothing :
    legalWord (BitVec.ofNat 8 0x01 ++ 0#32) = false ∧ legalWord (BitVec.ofNat 8 0x1F ++ 0xFFFFFFFF#32) = false := by decide

theorem witness_LdCopiesTheImmediate :
    legalWord (BitVec.ofNat 8 0x22 ++ 0#32) = false ∧ legalWord (BitVec.ofNat 8 0x3F ++ 0xFFFFFFFF#32) = false := by decide

/-- A step with no event, one with a command, one with a reset before a command. -/
theorem witness_EveryStepTakesOneEvent :
    (∃ t, step busy = .next t) ∧ (∃ t, step (presentNext 0xFF00000000#40 busy) = .next t) ∧
    (∃ t, step { busy with pending := [.reset none, .command 0#40] } = .next t) :=
  ⟨⟨_, rfl⟩, ⟨_, rfl⟩, ⟨_, rfl⟩⟩

theorem witness_ConstLoadsTransparent :
    [0xC4, 0xC5, 0xCC, 0xCD].map (fun H => legalWord (BitVec.ofNat 8 H ++ 0#32)) = [false, false, false, false] := by
  decide

theorem witness_DescLatchesTheDescriptor :
    [0x41, 0x47, 0x58].map (fun H => legalWord (BitVec.ofNat 8 H ++ 0#32)) = [false, false, false] := by decide

/-- Each type, with its last lane. -/
theorem witness_SerialiseThenLoadKeepsTheChannels :
    (Form.raw .D .gray).toInstr = some (.rawGray .D) ∧ 0 < lenOf .gray ∧
    (Form.raw .S .rgb).toInstr = some (.rawRgb .S) ∧ 2 < lenOf .rgb ∧
    (Form.raw .D .rgba).toInstr = some (.rawRgba .D) ∧ 3 < lenOf .rgba := by decide

/-- An RGB reading with a non-canonical lane 3, and the grey pixel that round-trips beside one that does not. -/
theorem witness_ConversionLaws :
    (Instr.cvtRgbRgba .D).form = .cvt .D .rgb .rgba ∧
    sameAs (some .rgb) 0xFF010203#32 (readReg .D { busy with D := 0x00010203#32 }) = true ∧
    channel 0x00050505#32 0 = channel 0x00050505#32 1 ∧ channel 0x00000001#32 0 ≠ channel 0x00000001#32 1 ∧
    channel 0xFF000000#32 3 = 255 := by decide

/-- Weights 0 and 255, an opaque source, and the last colour channel of each destination. -/
theorem witness_OverdrawLaws :
    channel busy.S 3 ≠ 0 ∧ channel ({ busy with S := 0x00C89664#32 } : State).S 3 = 0 ∧
    channel ({ busy with S := 0xFFC89664#32 } : State).S 3 = 255 ∧
    Instr.ovdGrayRgba.form = .ovd .gray .rgba ∧ PixelType.gray ≠ .rgba ∧
    0 < colourChannels .gray ∧ 2 < colourChannels .rgb ∧ 2 < colourChannels .rgba := by decide

theorem witness_OverdrawLaws_next : ∃ t, exec .ovdGrayRgba busy = .next t := ⟨_, rfl⟩

/-- Opaque and RGBA8 sources; alpha 254 and 255, and a destination that already has the source's colour. -/
theorem witness_WhereDirectAndConvertFirstAgree :
    (PixelType.gray ≠ .rgba ∧ (Form.ovd .rgba .gray).toInstr = some .ovdRgbaGray ∧
      Pseudo.expand (.cvtovd .rgba .gray) = some [.cvtRgbaGray .S, .ovdGrayGray] ∧
      channel 0xFE010203#32 3 ≠ 255 ∧ channel 0xFF010203#32 3 = 255 ∧
      channel 0x00000002#32 0 = sourceChannel .rgba .gray 0xFE010203#32 0) ∧
    (PixelType.rgb ≠ .rgba ∧ PixelType.rgb ≠ .gray ∧ (Form.ovd .rgb .gray).toInstr = some .ovdRgbGray ∧
      Pseudo.expand (.cvtovd .rgb .gray) = some [.cvtRgbGray .S, .ovdGrayGray]) ∧
    (withPixels 0x00323232#32 0x80C89664#32).S = 0x80C89664#32 ∧
    (withPixels 0x00323232#32 0x80C89664#32).D = 0x00323232#32 ∧
    (withPixels 0x00000032#32 0x80C89664#32).D = 0x00000032#32 := by decide

/-- The smallest divisor, dividend 0, and dividends -1 (inexact) and -255 (exact). -/
theorem witness_TdivTruncatesTowardZero :
    tdiv 7 1 = 7 ∧ tdiv 0 255 = 0 ∧ tdiv (-1) 255 = 0 ∧ Int.fdiv (-1) 255 = -1 ∧ tdiv (-255) 255 = -1 ∧
    Int.fdiv (-255) 255 = -1 := by decide

/-- The width 17 itself, on the source example that steps down. -/
theorem witness_BlendNeedsSeventeenBits :
    17 ≤ 17 ∧ blend8 255#8 0#8 254#8 = 1#8 ∧
    ((255#8).setWidth 17 + (((0#8).setWidth 17 - (255#8).setWidth 17) * (254#8).setWidth 17).sdiv (BitVec.ofNat 17 255)).setWidth 8 =
      1#8 := by decide

/-- Weights in order with the source above, at and below the destination, and the last weight below 255. -/
theorem witness_BlendLaws :
    (0#8).toNat ≤ (255#8).toNat ∧ (10#8).toNat ≤ (11#8).toNat ∧ (7#8).toNat ≤ (7#8).toNat ∧ (254#8).toNat < 255 := by
  decide

/-- Both sides of the two bounds. -/
theorem witness_DoubledAlphaSaturates :
    511 < 512 ∧ (127#8).toNat ≤ 127 ∧ 128 ≤ (128#8).toNat ∧ sat8 255 = 255#8 ∧ sat8 256 = 255#8 ∧ sat8 254 = 254#8 := by
  decide

/-- The ends of R13's ranges. -/
theorem witness_DividerFreeDivisionIsExact :
    fdiv255ShiftAdd 65025 = 255 ∧ fdiv255MulShift 65025 = 255 ∧ fdiv3MulShift11 765 = 255 ∧ fdiv3MulShift17 765 = 255 ∧
    tdiv255ShiftAdd (-65025) = -255 ∧ tdiv255ShiftAdd (-65024) = -254 := by decide

theorem witness_PseudoInstructionsAbbreviate : PixelType.gray ≠ .rgba := by decide

/-- A number that names an instance, one that names none, and two different ones. -/
theorem witness_InstancesShareNothing :
    ([busy, State.reset][1]? = some State.reset) ∧ ([busy, State.reset][2]? = none) ∧ (0 : Nat) ≠ 1 := by decide

/-- Every effect due at the very time the last one is, none one moment before the first is, one of two between, with the
next not due; and a later time. -/
theorem witness_ObservationShowsAWholePrefix :
    (∀ p ∈ [(2, 0x4000000000#40), (3, 0x4800000000#40)], p.1 + 3 ≤ 6) ∧
    (∀ p ∈ [(2, 0x4000000000#40), (3, 0x4800000000#40)], 4 < p.1 + 3) ∧
    (∀ p ∈ [(2, 0x4000000000#40), (3, 0x4800000000#40)].take 1, p.1 + 3 ≤ 5) ∧
    [(2, 0x4000000000#40), (3, 0x4800000000#40)][1]? = some (3, 0x4800000000#40) ∧ 5 < 3 + 3 ∧ (4 : Nat) ≤ 6 := by decide

/-- At time 5 with latency 3 the first DESC has its effect and the second has not. -/
theorem test_observed_state :
    (stateOf (stateAt 3 5 [(2, 0x4000000000#40), (3, 0x4800000000#40)] State.reset)).map observe =
      some ⟨0#32, 0#32, 0#32, 0#3, 0x0180#16, 0#1⟩ := by decide

end Sys2Proof.Tests
end

/-! PROOFS. The arithmetic primitives of 00_scope.md: the truncating division, luminance, blend,
saturation and the divider-free divisions (R6, R8 to R11, R13). -/

namespace Sys2Proof.Machine

/-! ### Truncating division (R6) -/

/-- On a non-negative dividend truncation is the floor. -/
theorem tdiv_of_nonneg {n : Int} (m : Nat) (hn : 0 ≤ n) : tdiv n m = Int.fdiv n m := by
  rw [Int.fdiv_eq_ediv_of_nonneg n m.cast_nonneg, tdiv, if_pos hn]

/-- On a negative dividend truncation is the mirror image of the floor. -/
theorem tdiv_of_neg {n : Int} (m : Nat) (hn : n < 0) : tdiv n m = -Int.fdiv (-n) m := by
  rw [Int.fdiv_eq_ediv_of_nonneg _ m.cast_nonneg, tdiv, if_neg (not_le.mpr hn)]

/-- The quotient is the one whose remainder is below the divisor and is 0 or has the dividend's sign. -/
theorem eq_tdiv_iff {n : Int} {m : Nat} (hm : 0 < m) (q : Int) :
    q = tdiv n m ↔
      ∃ rem : Int, n = q * m + rem ∧ rem.natAbs < m ∧ (rem = 0 ∨ (0 < rem ∧ 0 < n) ∨ (rem < 0 ∧ n < 0)) := by
  have hm0 : (m : Int) ≠ 0 := by omega
  rw [tdiv_eq_tdiv]
  constructor
  · rintro rfl
    have hdiv := Int.mul_tdiv_add_tmod n m
    refine ⟨Int.tmod n m, by rw [mul_comm]; exact hdiv.symm, ?_, ?_⟩
    · rw [Int.natAbs_tmod]; exact Nat.mod_lt _ hm
    · rcases le_total 0 n with hn | hn
      · obtain ⟨-, hr, -⟩ := (Int.tdiv_tmod_unique hn hm0).mp ⟨rfl, rfl⟩
        rcases hn.eq_or_lt with rfl | hn'
        · exact .inl (Int.zero_tmod _)
        · omega
      · obtain ⟨-, -, hr⟩ := (Int.tdiv_tmod_unique' hn hm0).mp ⟨rfl, rfl⟩
        rcases hn.eq_or_lt with rfl | hn'
        · exact .inl (Int.zero_tmod _)
        · omega
  · rintro ⟨rem, hn, hlt, hsign⟩
    have hdiv : rem + m * q = n := by rw [hn]; ring
    rcases le_total 0 n with h | h
    · exact ((Int.tdiv_tmod_unique h hm0).mpr ⟨hdiv, by omega, by omega⟩).1.symm
    · exact ((Int.tdiv_tmod_unique' h hm0).mpr ⟨hdiv, by omega, by omega⟩).1.symm

/-- Truncation is one above the floor on a negative inexact dividend and is the floor elsewhere. -/
theorem tdiv_eq_fdiv_add {n : Int} {m : Nat} (hm : 0 < m) :
    tdiv n m = Int.fdiv n m + if n < 0 ∧ ¬ (m : Int) ∣ n then 1 else 0 := by
  have hsign : Int.sign (m : Int) = 1 := Int.sign_eq_one_of_pos (by omega)
  rw [tdiv_eq_tdiv, Int.tdiv_eq_ediv, Int.fdiv_eq_ediv_of_nonneg n m.cast_nonneg, hsign]
  have hexact : (0 ≤ n ∨ (m : Int) ∣ n) ↔ ¬ (n < 0 ∧ ¬ (m : Int) ∣ n) := by rw [not_and_or, not_lt, not_not]
  simp only [hexact, ite_not]

/-- Settles O45: each clause is a law of tdiv above. -/
theorem tdivTruncatesTowardZero : Obligations.TdivTruncatesTowardZero := by
  intro n m hm
  have hfloor := tdiv_eq_fdiv_add (n := n) hm
  refine ⟨tdiv_of_nonneg m, tdiv_of_neg m, eq_tdiv_iff hm, ?_, fun hn hd => ?_⟩
  · by_cases h : n < 0 ∧ ¬ (m : Int) ∣ n
    · rw [if_pos h] at hfloor
      exact iff_of_true (by omega) h
    · rw [if_neg h] at hfloor
      exact iff_of_false (by omega) h
  · rwa [if_pos ⟨hn, hd⟩] at hfloor

/-! ### Luminance (R8) -/

/-- Ten bits hold the sum of three channels, so a 10-bit datapath gives the luminance. -/
theorem lum8_eq_tenBit (r g b : Byte) :
    lum8 r g b = ((r.setWidth 10 + g.setWidth 10 + b.setWidth 10) / 3#10).setWidth 8 := by
  have hr := r.isLt; have hg := g.isLt; have hb := b.isLt
  have hsum : (r.setWidth 10 + g.setWidth 10 + b.setWidth 10).toNat = r.toNat + g.toNat + b.toNat := by
    simp only [BitVec.toNat_add, BitVec.toNat_setWidth]; omega
  apply BitVec.eq_of_toNat_eq
  rw [lum8_toNat, BitVec.toNat_setWidth, BitVec.toNat_udiv, hsum, (by decide : (3#10).toNat = 3)]
  omega

/-- Settles O46: the luminance as a number, and the 10-bit sum that does not wrap around. -/
theorem luminanceIsTheTruncatedAverage : Obligations.LuminanceIsTheTruncatedAverage :=
  ⟨fun r g b => ⟨lum8_toNat r g b, lum8_eq_tenBit r g b⟩, lum8_grey, by decide⟩

/-! ### The blend's datapath (R9) -/

/-- The low bits of an integer's two's-complement word do not depend on the word's width. -/
theorem setWidth_ofInt_of_le {k n : Nat} (h : k ≤ n) (x : Int) : (BitVec.ofInt n x).setWidth k = BitVec.ofInt k x := by
  apply BitVec.eq_of_toInt_eq
  rw [BitVec.toInt_ofInt, BitVec.toInt_setWidth, BitVec.toNat_ofInt,
    Int.toNat_of_nonneg (Int.emod_nonneg _ (by positivity)),
    Int.bmod_def, Int.bmod_def, Int.emod_emod_of_dvd _ (by exact_mod_cast Nat.pow_dvd_pow 2 h)]

/-- A word of at least 17 bits holds every integer whose magnitude needs no more than 16 (R9). -/
theorem toInt_ofInt_of_natAbs_lt {n : Nat} (hn : 17 ≤ n) {x : Int} (hx : x.natAbs < 65536) :
    (BitVec.ofInt n x).toInt = x := by
  have hpow : 2 ^ 16 ≤ (2 : Int) ^ (n - 1) := pow_le_pow_right₀ (by decide) (by omega)
  exact BitVec.toInt_ofInt_eq_self (by omega) (by omega) (by omega)

/-- Division truncating toward zero in a word of at least 17 bits is that of the integers held. -/
theorem sdiv_ofInt {n : Nat} (hn : 17 ≤ n) {x y : Int} (hx : x.natAbs < 65536) (hy : y.natAbs < 65536) :
    (BitVec.ofInt n x).sdiv (BitVec.ofInt n y) = BitVec.ofInt n (Int.tdiv x y) := by
  apply BitVec.eq_of_toInt_eq
  rw [BitVec.toInt_sdiv, toInt_ofInt_of_natAbs_lt hn hx, toInt_ofInt_of_natAbs_lt hn hy, BitVec.toInt_ofInt]

/-- A product of a difference of channels and a weight is between -65025 and 65025. -/
theorem natAbs_blendProduct_le (d s w : Byte) : (((s.toNat : Int) - d.toNat) * w.toNat).natAbs ≤ 65025 := by
  have hd := d.isLt; have hs := s.isLt; have hw := w.isLt
  rw [Int.natAbs_mul]
  exact Nat.mul_le_mul (by omega : _ ≤ 255) (by omega : _ ≤ 255)

/-- R9's datapath in two's-complement words of n bits: subtract, multiply, divide truncating toward zero, add. -/
def blendDatapath (n : Nat) (d s w : Byte) : Byte :=
  (d.setWidth n + ((s.setWidth n - d.setWidth n) * w.setWidth n).sdiv (BitVec.ofNat n 255)).setWidth 8

/-- Every stage of the datapath holds the integer of that stage, since each is within the word. -/
theorem blendDatapath_eq_blend8 {n : Nat} (hn : 17 ≤ n) (d s w : Byte) : blendDatapath n d s w = blend8 d s w := by
  have hchannel : ∀ c : Byte, c.setWidth n = BitVec.ofInt n c.toNat := fun c => by
    rw [BitVec.ofInt_natCast, BitVec.ofNat_toNat]
  have hprod : (s.setWidth n - d.setWidth n) * w.setWidth n =
      BitVec.ofInt n (((s.toNat : Int) - d.toNat) * w.toNat) := by
    rw [BitVec.ofInt_mul, Int.sub_eq_add_neg, BitVec.ofInt_add, BitVec.ofInt_neg, ← hchannel, ← hchannel, ← hchannel,
      BitVec.sub_eq_add_neg]
  have hbound := natAbs_blendProduct_le d s w
  rw [blendDatapath, hprod, ← BitVec.ofInt_natCast, sdiv_ofInt hn (by omega) (by decide), hchannel,
    ← BitVec.ofInt_add, setWidth_ofInt_of_le (by omega), blend8, tdiv_eq_tdiv]
  rfl

/-- Settles O47: the datapath lemma, with 255 over 0 at full weight for the 16-bit word. -/
theorem blendNeedsSeventeenBits : Obligations.BlendNeedsSeventeenBits :=
  ⟨blend8_toInt, ⟨50#8, 100#8, 128#8, by decide⟩, ⟨50#8, 100#8, 128#8, by decide⟩,
    fun _ d s w hn => (blendDatapath_eq_blend8 hn d s w).symm, ⟨0#8, 255#8, 255#8, by decide⟩⟩

/-! ### The blend's laws (R10) -/

/-- Weight 0 leaves the destination (R10 (b)). -/
theorem blend8_zero_weight (d s : Byte) : blend8 d s 0#8 = d := by
  have h := blend8_toInt d s 0#8
  apply BitVec.eq_of_toNat_eq
  simpa using h

/-- Blending a channel with itself leaves it, at every weight (R10 (c)). -/
theorem blend8_same (d w : Byte) : blend8 d d w = d := by
  have h := blend8_toInt d d w
  apply BitVec.eq_of_toNat_eq
  simpa using h

/-- A blend lies between destination and source (R10 (d)). -/
theorem blend8_between (d s w : Byte) :
    min d.toNat s.toNat ≤ (blend8 d s w).toNat ∧ (blend8 d s w).toNat ≤ max d.toNat s.toNat := by
  have hw := w.isLt
  have h := blend8_toInt d s w
  obtain ⟨hup, hdown⟩ := tdiv_blend_bounds ((s.toNat : Int) - d.toNat) w.toNat (by omega) (by omega)
  rcases le_total (d.toNat : Int) s.toNat with hds | hsd
  · have := hup (by omega); omega
  · have := hdown (by omega); omega

/-- The blend follows the order of its products, since truncation and the sum with the destination are monotone. -/
theorem blend8_le_of_product_le {d s v w : Byte}
    (h : ((s.toNat : Int) - d.toNat) * v.toNat ≤ ((s.toNat : Int) - d.toNat) * w.toNat) :
    (blend8 d s v).toNat ≤ (blend8 d s w).toNat := by
  have hv := blend8_toInt d s v
  have hw := blend8_toInt d s w
  have hquot := Int.tdiv_le_tdiv (by decide : (0 : Int) < 255) h
  omega

/-- The blend is monotone in the weight toward the source, on either side of the destination (R10 (f)). -/
theorem blend8_monotone_weight {d s v w : Byte} (hvw : v.toNat ≤ w.toNat) :
    (d.toNat ≤ s.toNat → (blend8 d s v).toNat ≤ (blend8 d s w).toNat) ∧
    (s.toNat ≤ d.toNat → (blend8 d s w).toNat ≤ (blend8 d s v).toNat) :=
  ⟨fun hds => blend8_le_of_product_le (mul_le_mul_of_nonneg_left (by omega) (by omega)),
    fun hsd => blend8_le_of_product_le (mul_le_mul_of_nonpos_left (by omega) (by omega))⟩

/-- A difference of 1 is lost at every weight below 255: the blend is not strictly monotone (R10 (f)). -/
theorem blend8_ten_eleven {w : Byte} (hw : w.toNat < 255) : blend8 10#8 11#8 w = 10#8 := by
  have h := blend8_toInt 10#8 11#8 w
  have hprod : (((11#8).toNat : Int) - (10#8).toNat) * w.toNat = w.toNat := by simp
  rw [hprod, Int.tdiv_eq_zero_of_lt (by omega) (by omega)] at h
  apply BitVec.eq_of_toNat_eq
  omega

/-- Settles O48: the laws of blend8 above, and the rule's numbers. -/
theorem blendLaws : Obligations.BlendLaws :=
  ⟨fun d s => ⟨blend8_opaque d s, blend8_zero_weight d s⟩, blend8_same, blend8_between,
    fun _ _ _ _ => blend8_monotone_weight, fun _ => blend8_ten_eleven, by decide⟩

/-! ### Saturation (R11) -/

/-- The accumulated alpha is the doubled source alpha, in 8 bits where it fits and 255 where it does not. -/
theorem alphaAcc_eq (sa da : Byte) : alphaAcc sa da = if 255 < sa.toNat + sa.toNat then 255#8 else sa + sa := by
  apply BitVec.eq_of_toNat_eq
  rw [alphaAcc, sat8_toNat]
  split
  next h => simp only [BitVec.toNat_ofNat]; omega
  next h => rw [BitVec.toNat_add]; omega

/-- Settles O49: saturation is the minimum with 255, which each clause reads off. -/
theorem doubledAlphaSaturates : Obligations.DoubledAlphaSaturates := by
  refine ⟨fun n _ => ?_, fun a => ⟨fun h => ?_, fun h => ?_⟩, alphaAcc_eq⟩
  · rw [sat8_toNat]; split <;> omega
  · rw [sat8_toNat]; omega
  · rw [sat8_toNat]; omega

/-! ### Divider-free divisions (R13) -/

theorem fdiv255ShiftAdd_eq {n : Nat} (h : n ≤ 65025) : fdiv255ShiftAdd n = n / 255 := by
  rw [fdiv255ShiftAdd, Nat.shiftRight_eq_div_pow, Nat.shiftRight_eq_div_pow]; omega

theorem fdiv255MulShift_eq {n : Nat} (h : n ≤ 65025) : fdiv255MulShift n = n / 255 := by
  rw [fdiv255MulShift, Nat.shiftRight_eq_div_pow]; omega

theorem fdiv3MulShift11_eq {n : Nat} (h : n ≤ 765) : fdiv3MulShift11 n = n / 3 := by
  rw [fdiv3MulShift11, Nat.shiftRight_eq_div_pow]; omega

theorem fdiv3MulShift17_eq {n : Nat} (h : n ≤ 765) : fdiv3MulShift17 n = n / 3 := by
  rw [fdiv3MulShift17, Nat.shiftRight_eq_div_pow]; omega

/-- Dividing the magnitude and restoring the sign truncates toward zero. -/
theorem tdiv255ShiftAdd_eq {p : Int} (h : p.natAbs ≤ 65025) : tdiv255ShiftAdd p = tdiv p 255 := by
  rw [tdiv255ShiftAdd, fdiv255ShiftAdd_eq h, tdiv]
  split <;> omega

/-- Settles O50: the five exact forms above; the shorter constant first fails at 512. -/
theorem dividerFreeDivisionIsExact : Obligations.DividerFreeDivisionIsExact :=
  ⟨fun _ h => ⟨fdiv255ShiftAdd_eq h, fdiv255MulShift_eq h⟩,
    fun _ h => ⟨fdiv3MulShift11_eq h, fdiv3MulShift17_eq h⟩,
    ⟨512, by decide⟩, fun _ hlo hhi => tdiv255ShiftAdd_eq (by omega)⟩

end Sys2Proof.Machine

/-! PROOFS. The registers of 10_state.md: their values after reset and after every step, what each instruction
writes and reads, and what is observed at a time (R24 to R27, R32 to R36, R148). -/

namespace Sys2Proof.Machine

/-! ### Reset (R36) -/

/-- Settles O1: State.reset writes out R36's values. -/
theorem resetLeavesEveryRegisterZero : Obligations.ResetLeavesEveryRegisterZero := by
  unfold Obligations.ResetLeavesEveryRegisterZero
  decide

/-- Settles O16: zero in O, OLEN and FD is legal. -/
theorem outputsAreLegalAtReset : Obligations.OutputsAreLegalAtReset := by
  unfold Obligations.OutputsAreLegalAtReset
  decide

/-! ### The outputs' values (R26, R27) -/

theorem outputsLegal_iff (s : State) :
    outputsLegal s = true ↔
      (s.OLEN = 0#3 ∨ s.OLEN = 1#3 ∨ s.OLEN = 3#3 ∨ s.OLEN = 4#3) ∧ s.O.toNat < 2 ^ (8 * s.OLEN.toNat) ∧
      (s.FD = 0x0000#16 ∨ s.FD = 0x0180#16 ∨ s.FD = 0x0381#16 ∨ s.FD = 0x0482#16) := by
  simp only [outputsLegal, Bool.and_eq_true, decide_eq_true_eq, and_assoc]

/-- The register OLEN holds the length of every type. -/
theorem ofNat_lenOf_toNat (t : PixelType) : (BitVec.ofNat 3 (lenOf t)).toNat = lenOf t := by cases t <;> rfl

/-- A masked value has no bit beyond its type's length. -/
theorem and_maskOf_lt (t : PixelType) (p : Word) : (p &&& maskOf t).toNat < 2 ^ (8 * lenOf t) := by
  rw [and_maskOf_toNat]
  exact Nat.mod_lt _ (by positivity)

/-- RAW and DESC write legal values; the other effects leave O, OLEN and FD alone. -/
theorem effect_keeps_outputsLegal {s t : State} (h : outputsLegal s = true) (e : Effect s t) :
    outputsLegal t = true := by
  rw [outputsLegal_iff] at h ⊢
  obtain ⟨hlen, hO, hFD⟩ := h
  cases e with
  | none => exact ⟨hlen, hO, hFD⟩
  | reg r v => simpa using ⟨hlen, hO, hFD⟩
  | raw r ty =>
    refine ⟨?_, ?_, hFD⟩
    · rw [writeRaw_OLEN]; cases ty <;> decide
    · rw [writeRaw_O, writeRaw_OLEN, ofNat_lenOf_toNat]
      exact and_maskOf_lt ty _
  | desc ty =>
    refine ⟨hlen, hO, ?_⟩
    rw [writeDesc_FD]; cases ty <;> decide

/-- Settles O15: by what a step can do, an instruction's effect, ST.ILL raised, or reset. -/
theorem outputsStayLegal : Obligations.OutputsStayLegal := by
  intro s t h hstep
  obtain ⟨-, rfl⟩ | ⟨_, rest, _, -, -, hexec⟩ | ⟨_, rest, _, -, -, rfl⟩ | ⟨_, rest, -, rfl⟩ := step_cases hstep
  · exact h
  · have hrest : outputsLegal { s with pending := rest } = true := h
    exact effect_keeps_outputsLegal hrest (effect_of_exec hexec)
  · exact h
  · exact outputsAreLegalAtReset

/-! ### Canonical values (R25) -/

theorem canonical_pack1 (a : Byte) : canonical .gray (pack1 a) = true :=
  decide_eq_true ((and_mask_gray _).trans (by rw [lane0_pack1]))

theorem canonical_pack3 (a b c : Byte) : canonical .rgb (pack3 a b c) = true :=
  decide_eq_true ((and_mask_rgb _).trans (by rw [lane0_pack3, lane1_pack3, lane2_pack3]))

/-- An RGBA pixel uses every lane. -/
theorem canonical_rgba (p : Word) : canonical .rgba p = true := decide_eq_true (and_mask_rgba p)

/-- An overdraw packs as many lanes as its destination type has. -/
theorem canonical_overdraw (a d : PixelType) (S D : Word) : canonical d (overdraw a d S D) = true := by
  cases d with
  | gray => exact canonical_pack1 _
  | rgb => exact canonical_pack3 _ _ _
  | rgba => exact canonical_rgba _

/-- A canonical value is 0 in the channels beyond its type. -/
theorem channel_of_canonical {t : PixelType} {p : Word} {j : Nat} (h : canonical t p = true) (hj : lenOf t ≤ j) :
    channel p j = 0 := by
  have hp : p &&& maskOf t = p := of_decide_eq_true h
  have hlane := lane_and_maskOf t p j
  rw [hp, if_neg (by omega)] at hlane
  rw [← lane_toNat, hlane]
  rfl

/-! ### Reading a register as a type (R24) -/

/-- Values that read alike as a type have that type's lanes in common. -/
theorem lane_of_sameAs {t : PixelType} {p q : Word} (h : sameAs (some t) p q = true) {j : Nat} (hj : j < lenOf t) :
    lane p j = lane q j := by
  have hpq : p &&& maskOf t = q &&& maskOf t := of_decide_eq_true h
  have hp := lane_and_maskOf t p j
  have hq := lane_and_maskOf t q j
  rw [if_pos hj] at hp hq
  rw [← hp, ← hq, hpq]

theorem asGray_of_sameAs {p q : Word} (h : sameAs (some .gray) p q = true) : asGray p = asGray q := by
  have hlane := fun j => lane_of_sameAs h (j := j)
  simp only [asGray, hlane 0 (by decide)]

theorem asRgb_of_sameAs {p q : Word} (h : sameAs (some .rgb) p q = true) : asRgb p = asRgb q := by
  have hlane := fun j => lane_of_sameAs h (j := j)
  simp only [asRgb, hlane 0 (by decide), hlane 1 (by decide), hlane 2 (by decide)]

theorem eq_of_sameAs_rgba {p q : Word} (h : sameAs (some .rgba) p q = true) : p = q := by
  have hpq : p &&& maskOf .rgba = q &&& maskOf .rgba := of_decide_eq_true h
  simpa only [maskOf, and_mask_rgba] using hpq

/-- The ink of a source is read from the lanes of its type. -/
theorem inkOf_of_sameAs {t : PixelType} {S S' : Word} (h : sameAs (some t) S S' = true) : inkOf t S = inkOf t S' := by
  have hlane := fun j => lane_of_sameAs h (j := j)
  cases t with
  | gray => simp only [inkOf, hlane 0 (by decide)]
  | rgb => simp only [inkOf, hlane 0 (by decide), hlane 1 (by decide), hlane 2 (by decide)]
  | rgba => rw [eq_of_sameAs_rgba h]

/-- An overdraw reads its source as the source type and its destination as the destination type. -/
theorem overdraw_of_sameAs {a d : PixelType} {S S' D D' : Word} (hS : sameAs (some a) S S' = true)
    (hD : sameAs (some d) D D' = true) : overdraw a d S D = overdraw a d S' D' := by
  have hlane := fun j => lane_of_sameAs hD (j := j)
  have hink := inkOf_of_sameAs hS
  cases d with
  | gray => simp only [overdraw, hink, hlane 0 (by decide)]
  | rgb => simp only [overdraw, hink, hlane 0 (by decide), hlane 1 (by decide), hlane 2 (by decide)]
  | rgba => simp only [overdraw, hink, eq_of_sameAs_rgba hD]

/-! ### What an instruction does, by the form it is written in -/

/-- The form an instruction is written in names it. -/
theorem toInstr_of_form {i : Instr} {f : Form} (h : i.form = f) : f.toInstr = some i := h ▸ toInstr_form i

theorem exec_nop {i : Instr} (h : i.form = .nop) (s : State) : exec i s = .next s := by
  cases toInstr_of_form h; rfl

theorem exec_ld {i : Instr} {r : PixReg} {imm : Word} (h : i.form = .ld r imm) (s : State) :
    exec i s = .next (writeReg r imm s) := by
  cases toInstr_of_form h; rfl

theorem exec_desc {i : Instr} {t : PixelType} (h : i.form = .desc t) (s : State) :
    exec i s = .next (writeDesc (descriptor t) s) := by
  cases t <;> cases toInstr_of_form h <;> rfl

theorem exec_raw {i : Instr} {r : PixReg} {t : PixelType} (h : i.form = .raw r t) (s : State) :
    exec i s = .next (writeRaw (readReg r s &&& maskOf t) (lenOf t) s) := by
  cases t <;> cases toInstr_of_form h <;> rfl

/-- Every CONST loads one value, canonical for its type. -/
theorem exec_const {i : Instr} {r : PixReg} {t : PixelType} {k : ConstName} (h : i.form = .const r t k) :
    ∃ v : Word, canonical t v = true ∧ ∀ s, exec i s = .next (writeReg r v s) := by
  have hi := toInstr_of_form h
  cases t <;> cases k <;> cases hi <;> exact ⟨_, by decide, fun _ => rfl⟩

/-- Every CVT applies one function to its register in place; it reads the lanes of the source type and its values are
canonical for the destination type. -/
theorem exec_cvt {i : Instr} {r : PixReg} {a d : PixelType} (h : i.form = .cvt r a d) :
    ∃ f : Word → Word, (∀ p q, sameAs (some a) p q = true → f p = f q) ∧ (∀ p, canonical d (f p) = true) ∧
      ∀ s, exec i s = .next (convertReg f r s) := by
  have hi := toInstr_of_form h
  cases a with
  | gray =>
    cases d <;> cases hi
    · exact ⟨_, fun _ _ hpq => by rw [asGray_of_sameAs hpq], fun _ => canonical_pack3 _ _ _, fun _ => rfl⟩
    · exact ⟨_, fun _ _ hpq => by rw [asGray_of_sameAs hpq], fun _ => canonical_rgba _, fun _ => rfl⟩
  | rgb =>
    cases d <;> cases hi
    · exact ⟨_, fun _ _ hpq => by rw [asRgb_of_sameAs hpq], fun _ => canonical_pack1 _, fun _ => rfl⟩
    · exact ⟨_, fun _ _ hpq => by rw [asRgb_of_sameAs hpq], fun _ => canonical_rgba _, fun _ => rfl⟩
  | rgba =>
    cases d <;> cases hi
    · exact ⟨_, fun _ _ hpq => by rw [eq_of_sameAs_rgba hpq], fun _ => canonical_pack1 _, fun _ => rfl⟩
    · exact ⟨_, fun _ _ hpq => by rw [eq_of_sameAs_rgba hpq], fun _ => canonical_pack3 _ _ _, fun _ => rfl⟩

/-! ### Written and read columns of the register-use table (R35) -/

/-- Settles O17: by the form, the row of R35 against the register the instruction writes. -/
theorem instructionsWriteOnlyTheirRow : Obligations.InstructionsWriteOnlyTheirRow := by
  intro i s t h
  cases hform : i.form with
  | nop => rw [exec_nop hform] at h; cases h; simp
  | ld r imm => rw [exec_ld hform] at h; cases h; cases r <;> simp [regUse]
  | desc ty => rw [exec_desc hform] at h; cases h; simp [regUse]
  | raw r ty => rw [exec_raw hform] at h; cases h; cases r <;> simp [regUse]
  | cvt r a d =>
    obtain ⟨f, -, -, hexec⟩ := exec_cvt hform
    rw [hexec] at h; cases h; cases r <;> simp [regUse, convertReg]
  | ovd a d => rw [exec_ovd hform] at h; cases h; simp [regUse]
  | const r ty k =>
    obtain ⟨v, -, hexec⟩ := exec_const hform
    rw [hexec] at h; cases h; cases r <;> simp [regUse]

/-- Settles O18: by the form; the value written is a constant of the form or read from the lanes of the row's types. -/
theorem resultsDependOnlyOnTheLanesRead : Obligations.ResultsDependOnlyOnTheLanesRead := by
  intro i s s' t t' hD hS h h'
  cases hform : i.form with
  | nop => simp [regUse, RegUse.none]
  | ld r imm =>
    rw [exec_ld hform] at h h'; cases h; cases h'
    cases r <;> simp [regUse, RegUse.none]
  | desc ty =>
    rw [exec_desc hform] at h h'; cases h; cases h'
    simp [regUse, RegUse.none]
  | raw r ty =>
    rw [exec_raw hform] at h h'; cases h; cases h'
    rw [hform] at hD hS
    have hread : readReg r s &&& maskOf ty = readReg r s' &&& maskOf ty := by
      cases r with
      | D => exact of_decide_eq_true hD
      | S => exact of_decide_eq_true hS
    cases r <;> simpa [regUse, RegUse.none] using hread
  | cvt r a d =>
    obtain ⟨f, hreads, -, hexec⟩ := exec_cvt hform
    rw [hexec] at h h'; cases h; cases h'
    rw [hform] at hD hS
    cases r with
    | D => simpa [regUse, RegUse.none, convertReg] using hreads _ _ hD
    | S => simpa [regUse, RegUse.none, convertReg] using hreads _ _ hS
  | ovd a d =>
    rw [exec_ovd hform] at h h'; cases h; cases h'
    rw [hform] at hD hS
    simpa [regUse, RegUse.none] using overdraw_of_sameAs hS hD
  | const r ty k =>
    obtain ⟨v, -, hexec⟩ := exec_const hform
    rw [hexec] at h h'; cases h; cases h'
    cases r <;> simp [regUse, RegUse.none]

/-- A pixel that CONST, CVT or OVD computes is canonical for its type. -/
theorem canonical_of_computes {i : Instr} {r : PixReg} {ty : PixelType} {s t : State}
    (hc : computes i.form = some (r, ty)) (h : exec i s = .next t) : canonical ty (readReg r t) = true := by
  cases hform : i.form with
  | nop | ld | desc | raw => rw [hform] at hc; cases hc
  | cvt r a d =>
    obtain ⟨f, -, hcanonical, hexec⟩ := exec_cvt hform
    rw [hform] at hc; cases hc
    rw [hexec] at h; cases h
    rw [convertReg, readReg_writeReg]
    exact hcanonical _
  | ovd a d =>
    rw [hform] at hc; cases hc
    rw [exec_ovd hform] at h; cases h
    exact canonical_overdraw _ _ _ _
  | const r ty k =>
    obtain ⟨v, hcanonical, hexec⟩ := exec_const hform
    rw [hform] at hc; cases hc
    rw [hexec] at h; cases h
    rwa [readReg_writeReg]

/-- Settles O19: a computed pixel is canonical, and LD writes its immediate. -/
theorem computedPixelsAreCanonical : Obligations.ComputedPixelsAreCanonical :=
  ⟨fun _ _ _ _ _ hc h _ _ hj => channel_of_canonical (canonical_of_computes hc h) hj,
    fun r imm s => ⟨_, exec_ld (i := .ld r imm) rfl s, readReg_writeReg r imm s⟩⟩

/-! ### Observation at a time (R34, R44, R148; log entry 11) -/

/-- How many of the accepted commands come before the first whose effect is not due at `now`. -/
def dueCount (latency now : Nat) (accepted : List (Nat × CommandWord)) : Nat :=
  accepted.findIdx fun p => decide (now < p.1 + latency)

/-- The commands visible at a time are the first dueCount ones. -/
theorem visibleBy_eq_take (latency now : Nat) (accepted : List (Nat × CommandWord)) :
    visibleBy latency now accepted = (accepted.take (dueCount latency now accepted)).map Prod.snd := by
  unfold dueCount
  induction accepted with
  | nil => rfl
  | cons p rest ih =>
    obtain ⟨time, W⟩ := p
    rw [visibleBy, List.findIdx_cons]
    by_cases hdue : time + latency ≤ now
    · simp [hdue, Nat.not_lt.mpr hdue, ih]
    · simp [hdue, Nat.lt_of_not_le hdue]

/-- What is not yet due at a time was not due before. -/
theorem dueCount_mono {latency now later : Nat} (h : now ≤ later) (accepted : List (Nat × CommandWord)) :
    dueCount latency now accepted ≤ dueCount latency later accepted :=
  List.findIdx_le_findIdx fun p _ hp => by simp only [decide_eq_true_eq] at hp ⊢; omega

theorem dueCount_le_length (latency now : Nat) (accepted : List (Nat × CommandWord)) :
    dueCount latency now accepted ≤ accepted.length := List.findIdx_le_length

/-- Each command counted is due. -/
theorem due_of_mem_take {latency now : Nat} {accepted : List (Nat × CommandWord)} {p : Nat × CommandWord}
    (hp : p ∈ accepted.take (dueCount latency now accepted)) : p.1 + latency ≤ now := by
  obtain ⟨j, hj, rfl⟩ := List.mem_take_iff_getElem.mp hp
  simpa using List.not_of_lt_findIdx (lt_min_iff.mp hj).1

/-- The first command not counted is not due. -/
theorem not_due_of_getElem? {latency now : Nat} {accepted : List (Nat × CommandWord)} {p : Nat × CommandWord}
    (hp : accepted[dueCount latency now accepted]? = some p) : now < p.1 + latency := by
  obtain ⟨hlt, rfl⟩ := List.getElem?_eq_some_iff.mp hp
  exact of_decide_eq_true (List.findIdx_getElem (w := hlt))

theorem dueCount_eq_length {latency now : Nat} {accepted : List (Nat × CommandWord)}
    (h : ∀ p ∈ accepted, p.1 + latency ≤ now) : dueCount latency now accepted = accepted.length :=
  List.findIdx_eq_length_of_false fun p hp => decide_eq_false (Nat.not_lt.mpr (h p hp))

/-- A command counted would be due. -/
theorem dueCount_eq_zero {latency now : Nat} {accepted : List (Nat × CommandWord)}
    (h : ∀ p ∈ accepted, now < p.1 + latency) : dueCount latency now accepted = 0 := by
  by_contra hne
  cases accepted with
  | nil => exact hne rfl
  | cons p rest =>
    have hfirst : p ∈ (p :: rest).take (dueCount latency now (p :: rest)) := by
      obtain ⟨n, hn⟩ := Nat.exists_eq_succ_of_ne_zero hne
      simp [hn]
    have := due_of_mem_take hfirst
    have := h p List.mem_cons_self
    omega

/-- Command words presented one after another answer a next state. -/
theorem presentEach_commands_next (ws : List CommandWord) (s : State) :
    ∃ t, presentEach (ws.map HostEvent.command) s = .next t := by
  induction ws generalizing s with
  | nil => exact ⟨s, rfl⟩
  | cons W ws ih =>
    obtain ⟨u, hu⟩ := presentWord_next W s
    obtain ⟨t, ht⟩ := ih u
    exact ⟨t, by rw [List.map_cons, presentEach, present, hu]; exact ht⟩

/-- Running a list of waiting command words is presenting each, with no event left (R44). -/
theorem run_presentAll {ws : List CommandWord} {s t : State}
    (h : presentEach (ws.map HostEvent.command) s = .next t) :
    Host.Core.run Sys2Proof.core ws.length (presentAll ws s) = .next { t with pending := [] } := by
  induction ws generalizing s with
  | nil => cases h; rfl
  | cons W ws ih =>
    obtain ⟨u, hu⟩ := presentWord_next W s
    have hword := presentWord_pending (ws.map HostEvent.command) hu
    have hstep : step (presentAll (W :: ws) s) = .next (presentAll ws u) := (step_command rfl).trans hword
    rw [List.map_cons, presentEach, present, hu] at h
    rw [List.length_cons, run_succ hstep]
    exact ih h

/-- Settles O53: the number of commands is dueCount. -/
theorem observationShowsAWholePrefix : Obligations.ObservationShowsAWholePrefix := by
  intro latency accepted
  refine ⟨fun now => dueCount latency now accepted, fun _ _ hle => dueCount_mono hle accepted,
    fun now => dueCount_le_length latency now accepted, fun _ _ => due_of_mem_take, fun _ _ => not_due_of_getElem?,
    fun _ => dueCount_eq_length, fun _ => dueCount_eq_zero, fun now s => ?_⟩
  obtain ⟨t, ht⟩ := presentEach_commands_next ((accepted.take (dueCount latency now accepted)).map Prod.snd) s
  have hrun := run_presentAll ht
  rw [List.length_map, List.length_take_of_le (dueCount_le_length latency now accepted)] at hrun
  refine ⟨t, ?_, hrun, ht⟩
  rw [stateAt, visibleBy_eq_take]
  exact ht

end Sys2Proof.Machine

/-! PROOFS. The memory model of 20_memory.md: a step and its decoded instruction, a stream of commands cut in two, bytes
read back as a pixel, and instances side by side (R42, R44, R48, R130, R131). -/

namespace Sys2Proof.Machine

/-! ### The step (R44, R131) -/

/-- A word that decodes to an instruction runs it. -/
theorem presentWord_of_decode {W : CommandWord} {i : Instr} (h : decode W = .ok i) (s : State) :
    presentWord W s = exec i s := by
  rw [presentWord, h]

/-- With no event waiting the block holds its registers. -/
theorem step_idle {s : State} (h : s.pending = []) : step s = .next s := by
  unfold step takeEvent
  rw [h]

/-- A waiting reset is applied to the state without it. -/
theorem step_reset {s : State} {lost : Option CommandWord} {rest : List HostEvent}
    (h : s.pending = .reset lost :: rest) : step s = .next (applyReset { s with pending := rest }) := by
  unfold step takeEvent
  rw [h]
  rfl

/-- Every step answers a next state. -/
theorem step_next (s : State) : ∃ t, step s = .next t := by
  cases hpending : s.pending with
  | nil => exact ⟨s, step_idle hpending⟩
  | cons e rest =>
    cases e with
    | command W =>
      obtain ⟨t, ht⟩ := presentWord_next W { s with pending := rest }
      exact ⟨t, (step_command hpending).trans ht⟩
    | reset lost => exact ⟨_, step_reset hpending⟩

/-- Settles O8: the waiting word is presented, and presenting it runs what it decodes to. -/
theorem stepRunsTheDecodedInstruction : Obligations.StepRunsTheDecodedInstruction :=
  ⟨fun _ _ _ _ hpending hdecode => (step_command hpending).trans (presentWord_of_decode hdecode _),
    fun _ => step_idle⟩

/-! ### A stream of commands (R44; log entry 1) -/

/-- The first of a list of waiting words takes its effect, and the others go on waiting. -/
theorem step_presentAll_cons {W : CommandWord} {s u : State} (ws : List CommandWord) (h : presentWord W s = .next u) :
    step (presentAll (W :: ws) s) = .next (presentAll ws u) := by
  have hword := presentWord_pending (ws.map HostEvent.command) h
  exact (step_command rfl).trans hword

/-- A run of a list of words is the first word's effect, then the run of the others. -/
theorem run_presentAll_cons {W : CommandWord} {s u : State} (ws : List CommandWord) (h : presentWord W s = .next u) :
    Host.Core.run Sys2Proof.core (W :: ws).length (presentAll (W :: ws) s) =
      Host.Core.run Sys2Proof.core ws.length (presentAll ws u) :=
  run_succ (step_presentAll_cons ws h)

/-- Settles O14: by induction on the first part; its first word has the same effect whatever words follow it. -/
theorem streamsMayBeCutAnywhere : Obligations.StreamsMayBeCutAnywhere := by
  intro ws vs s t h
  induction ws generalizing s with
  | nil => cases h; rfl
  | cons W ws ih =>
    obtain ⟨u, hu⟩ := presentWord_next W s
    rw [run_presentAll_cons ws hu] at h
    rw [List.cons_append, run_presentAll_cons (ws ++ vs) hu]
    exact ih u h

/-! ### Bytes read back as a pixel (R41, R42) -/

/-- Byte 0 of a group is lane 0 of its immediate. -/
theorem lane_zero_immOfBytes_cons (b : Byte) (bs : List Byte) : lane (immOfBytes (b :: bs)) 0 = b := by
  ext i hi
  simp [lane, immOfBytes, hi, show i < 32 by omega]

/-- The later bytes of a group stand one lane above where they stand without byte 0. -/
theorem lane_succ_immOfBytes_cons (b : Byte) (bs : List Byte) {j : Nat} (hj : j + 1 < 4) :
    lane (immOfBytes (b :: bs)) (j + 1) = lane (immOfBytes bs) j := by
  ext i hi
  have hb : b.getLsbD (8 * (j + 1) + i) = false := BitVec.getLsbD_of_ge b _ (by omega)
  have hshift : 8 * (j + 1) + i - 8 = 8 * j + i := by omega
  have hword : 8 * (j + 1) + i < 32 := by omega
  have hbyte : ¬ 8 * (j + 1) + i < 8 := by omega
  simp only [lane, immOfBytes, BitVec.getElem_extractLsb', BitVec.getLsbD_or, BitVec.getLsbD_shiftLeft,
    BitVec.getLsbD_setWidth, hb, hshift, hword, hbyte]
  simp

/-- Byte j of a group of up to four bytes is lane j of its immediate. -/
theorem lane_immOfBytes {bs : List Byte} (hlen : bs.length ≤ 4) {j : Nat} (hj : j < bs.length) :
    lane (immOfBytes bs) j = bs[j] := by
  induction bs generalizing j with
  | nil => exact absurd hj (Nat.not_lt_zero j)
  | cons b bs ih =>
    rw [List.length_cons] at hlen hj
    cases j with
    | zero => exact lane_zero_immOfBytes_cons b bs
    | succ j => exact (lane_succ_immOfBytes_cons b bs (by omega)).trans (ih (by omega) (by omega))

/-- RAW shows the bytes of the register as the type: the mask does not touch them. -/
theorem rawBytes_writeRaw (ty : PixelType) (p : Word) (s : State) :
    rawBytes (writeRaw (p &&& maskOf ty) (lenOf ty) s) = bytesOf ty p := by
  rw [rawBytes, writeRaw_O, writeRaw_OLEN, ofNat_lenOf_toNat, bytesOf]
  exact List.map_congr_left fun j hj => by rw [lane_and_maskOf, if_pos (List.mem_range.mp hj)]

/-- The bytes of a register as a type, read back, are the lanes of that type. -/
theorem lane_immOfBytes_bytesOf {ty : PixelType} (p : Word) {j : Nat} (hj : j < lenOf ty) :
    lane (immOfBytes (bytesOf ty p)) j = lane p j := by
  have hlen : (bytesOf ty p).length = lenOf ty := by rw [bytesOf, List.length_map, List.length_range]
  have hmax : lenOf ty ≤ 4 := by cases ty <;> decide
  rw [lane_immOfBytes (hlen.trans_le hmax) (hj.trans_eq hlen.symm)]
  simp [bytesOf]

/-- Settles O27: RAW shows the register's bytes, and LD of them gives the lanes they came from. -/
theorem serialiseThenLoadKeepsTheChannels : Obligations.SerialiseThenLoadKeepsTheChannels := by
  intro r r' ty i s hi
  refine ⟨_, _, exec_raw (form_of_toInstr hi) s, exec_ld rfl _, fun j hj => ?_⟩
  rw [readReg_writeReg, rawBytes_writeRaw, ← lane_toNat, lane_immOfBytes_bytesOf _ hj, lane_toNat]

/-! ### Instances side by side (R48, R130; log entry 12) -/

/-- The state a step answers. -/
def afterStep (s : State) : State :=
  match step s with
  | .next t => t
  | .fault _ => s
  | .refused _ => s

theorem step_eq_afterStep (s : State) : step s = .next (afterStep s) := by
  obtain ⟨t, ht⟩ := step_next s
  rw [afterStep, ht]

/-- Stepping instance k steps the state at place k of the list and nothing else. -/
theorem stepInstance_eq_modify (k : Nat) (sys : List State) : stepInstance k sys = .next (sys.modify k afterStep) := by
  cases hk : sys[k]? with
  | none => rw [stepInstance, hk, List.modify_eq_self (List.getElem?_eq_none_iff.mp hk)]
  | some s =>
    rw [stepInstance, hk]
    simp only [step_eq_afterStep]
    rw [List.modify_eq_set_getElem?, hk]
    rfl

/-- Changes at two different places of a list may be made in either order. -/
theorem modify_modify_of_ne {α : Type} {j k : Nat} (hjk : j ≠ k) (f g : α → α) (l : List α) :
    (l.modify j f).modify k g = (l.modify k g).modify j f := by
  ext1 n
  simp only [List.getElem?_modify]
  by_cases hk : k = n
  · simp [hk ▸ hjk]
  · simp [hk]

/-- Settles O52: each step modifies the list at its own place. -/
theorem instancesShareNothing : Obligations.InstancesShareNothing := by
  refine ⟨fun k sys => ⟨_, stepInstance_eq_modify k sys, fun j hj => ?_, fun s hs => ?_⟩, fun j k sys hjk => ?_⟩
  · exact List.getElem?_modify_ne _ _ hj.symm
  · exact ⟨_, step_eq_afterStep s, by rw [List.getElem?_modify_eq, hs]; rfl⟩
  · simp only [stepSchedule, stepInstance_eq_modify, modify_modify_of_ne hjk]

end Sys2Proof.Machine

/-! PROOFS. The encoding of 30_encoding.md: the decoder and the encoder against each other, the legal and the illegal
headers, the ignored immediate, the pseudo-instructions and the assembler (R50 to R65). -/

namespace Sys2Proof.Machine

/-! ### The fields of a header (R51) -/

/-- The number of a header from its fields. -/
theorem header_toNat (f : Form) :
    f.header.toNat = 32 * f.op.toNat + 8 * f.st.toNat + 2 * f.dt.toNat + f.r.toNat := by
  have hst := f.st.isLt; have hdt := f.dt.isLt; have hr := f.r.isLt
  simp only [Form.header, BitVec.toNat_append]
  rw [← Nat.shiftLeft_add_eq_or_of_lt hst, ← Nat.shiftLeft_add_eq_or_of_lt hdt, ← Nat.shiftLeft_add_eq_or_of_lt hr]
  simp only [Nat.shiftLeft_eq]
  omega

/-- A header is its four fields, op above st above dt above r. -/
theorem fields_append (H : Header) : opOf H ++ stOf H ++ dtOf H ++ rOf H = H := by
  ext i hi
  simp only [BitVec.getElem_append, opOf, stOf, dtOf, rOf, BitVec.getElem_extractLsb']
  split_ifs <;> rw [← BitVec.getLsbD_eq_getElem] <;> congr 1 <;> omega

@[simp] theorem fields_header (f : Form) :
    opOf f.header = f.op ∧ stOf f.header = f.st ∧ dtOf f.header = f.dt ∧ rOf f.header = f.r := by
  have := f.op.isLt; have := f.st.isLt; have := f.dt.isLt; have := f.r.isLt
  refine ⟨?_, ?_, ?_, ?_⟩ <;> apply BitVec.eq_of_toNat_eq <;>
    simp only [opOf, stOf, dtOf, rOf, BitVec.extractLsb'_toNat, header_toNat, Nat.shiftRight_eq_div_pow] <;> omega

/-- A form with the fields of a header has that header. -/
theorem header_eq_of_fields {f : Form} {H : Header} (hop : opOf H = f.op) (hst : stOf H = f.st) (hdt : dtOf H = f.dt)
    (hr : rOf H = f.r) : f.header = H := by
  rw [Form.header, ← hop, ← hst, ← hdt, ← hr, fields_append]

/-! ### Decoding and encoding (R55, R56) -/

/-- A form is accepted as the instruction that is written in it. -/
theorem accept_eq_ok_iff {cause : IllegalCause} {f : Option Form} {i : Instr} :
    accept cause f = .ok i ↔ f = some i.form := by
  constructor
  · intro h
    unfold accept at h
    split at h
    next j hj =>
      cases h
      obtain ⟨g, rfl, hg⟩ := Option.bind_eq_some_iff.mp hj
      rw [form_of_toInstr hg]
    next => cases h
  · rintro rfl
    simp [accept]

/-- The header of an instruction decodes to it, with the immediate of LD. -/
theorem decodeHeader_header (i : Instr) {imm : Word} (himm : i.form.usesImm = true → imm = i.form.imm) :
    decodeHeader i.form.header imm = .ok i := by
  cases hform : i.form with
  | nop => cases toInstr_of_form hform; rfl
  | ld r x =>
    cases toInstr_of_form hform
    simp [decodeHeader, Form.op, Form.st, Form.dt, Form.r, himm rfl, Instr.form, Form.imm]
  | desc | raw | cvt | ovd | const =>
    simp [decodeHeader, accept_eq_ok_iff, hform, Form.op, Form.st, Form.dt, Form.r]

/-- A header that decodes to an instruction is that instruction's, and LD takes the immediate. -/
theorem header_of_decodeHeader {H : Header} {imm : Word} {i : Instr} (h : decodeHeader H imm = .ok i) :
    i.form.header = H ∧ (i.form.usesImm = true → i.form.imm = imm) := by
  unfold decodeHeader at h
  split_ifs at h with hop hH hop hfields hop hfields hop hdt hop hop hr hop
  · cases h
    exact ⟨hH.symm, nofun⟩
  · cases h
    obtain ⟨hst, hdt⟩ := hfields
    exact ⟨header_eq_of_fields hop hst hdt (regCode_regOfCode _).symm, fun _ => rfl⟩
  · obtain ⟨t, hst, hform⟩ := Option.map_eq_some_iff.mp (accept_eq_ok_iff.mp h)
    obtain ⟨hdt, hr⟩ := hfields
    rw [← hform]
    exact ⟨header_eq_of_fields hop (typeCode_of_typeOfCode hst).symm hdt hr, nofun⟩
  · obtain ⟨t, hst, hform⟩ := Option.map_eq_some_iff.mp (accept_eq_ok_iff.mp h)
    rw [← hform]
    exact ⟨header_eq_of_fields hop (typeCode_of_typeOfCode hst).symm hdt (regCode_regOfCode _).symm, nofun⟩
  · obtain ⟨a, hst, hmap⟩ := Option.bind_eq_some_iff.mp (accept_eq_ok_iff.mp h)
    obtain ⟨d, hdt, hform⟩ := Option.map_eq_some_iff.mp hmap
    rw [← hform]
    exact ⟨header_eq_of_fields hop (typeCode_of_typeOfCode hst).symm (typeCode_of_typeOfCode hdt).symm
      (regCode_regOfCode _).symm, nofun⟩
  · obtain ⟨a, hst, hmap⟩ := Option.bind_eq_some_iff.mp (accept_eq_ok_iff.mp h)
    obtain ⟨d, hdt, hform⟩ := Option.map_eq_some_iff.mp hmap
    rw [← hform]
    exact ⟨header_eq_of_fields hop (typeCode_of_typeOfCode hst).symm (typeCode_of_typeOfCode hdt).symm hr, nofun⟩
  · obtain ⟨t, hst, hmap⟩ := Option.bind_eq_some_iff.mp (accept_eq_ok_iff.mp h)
    obtain ⟨k, hdt, hform⟩ := Option.map_eq_some_iff.mp hmap
    rw [← hform]
    exact ⟨header_eq_of_fields hop (typeCode_of_typeOfCode hst).symm (constCode_of_constOfCode hdt).symm
      (regCode_regOfCode _).symm, nofun⟩

/-- Settles O3: a word's two parts are those of the encoding, and each direction is the header's. -/
theorem decodeInvertsEncode : Obligations.DecodeInvertsEncode := by
  intro W i
  have hH : (encode i).extractLsb' 32 8 = i.form.header := headerOf_append i.form.header i.form.imm
  have himm : (encode i).extractLsb' 0 32 = i.form.imm := immOf_append i.form.header i.form.imm
  rw [hH, himm]
  constructor
  · intro h
    obtain ⟨hheader, hld⟩ := header_of_decodeHeader h
    exact ⟨hheader.symm, fun huse => (hld huse).symm⟩
  · rintro ⟨hheader, hld⟩
    have hword : headerOf W = i.form.header := hheader
    rw [decode, hword]
    exact decodeHeader_header i hld

/-- Settles O4: the header's number stands 32 bits above the immediate. -/
theorem headersAddUpFromTheirFields : Obligations.HeadersAddUpFromTheirFields := by
  intro i
  refine ⟨?_, fun h => ?_⟩
  · rw [encode, append_toNat, header_toNat]
  · cases hform : i.form with
    | ld => rw [hform] at h; cases h
    | nop | desc | raw | cvt | ovd | const => rfl

/-! ### The ignored immediate (R55) -/

@[simp] theorem decode_append (H : Header) (x : Word) : decode (H ++ x) = decodeHeader H x := by
  rw [decode, headerOf_append, immOf_append]

/-- The immediate is handed on in LD's group alone. -/
theorem decodeHeader_congr_imm {H : Header} (h : opOf H ≠ 1#3) (x y : Word) : decodeHeader H x = decodeHeader H y := by
  simp only [decodeHeader, if_neg h]

/-- Settles O20: what is presented depends on the word through its decoding alone. -/
theorem immediateIsIgnoredByAllButLd : Obligations.ImmediateIsIgnoredByAllButLd := by
  intro H x y s h
  simp only [presentWord, decode_append, decodeHeader_congr_imm h x y]

/-! ### Legal and illegal headers (R57, R61) -/

/-- An instruction without an immediate is what its header means under any immediate. -/
theorem encodedAs_of_header {H : Nat} {i : Instr} (h : i.form.usesImm = false ∧ i.form.header = BitVec.ofNat 8 H) :
    EncodedAs H i := by
  obtain ⟨huse, hheader⟩ := h
  intro x
  rw [← hheader, decode_append]
  exact decodeHeader_header i fun hld => absurd hld (by simp [huse])

theorem length_legalHeaders :
    ((List.range 256).filter fun H => legalWord (BitVec.ofNat 8 H ++ 0#32)).length = 47 := by decide

/-- Settles O5: each row of the table is the header of its instruction. -/
theorem legalHeadersAreTheFortySeven : Obligations.LegalHeadersAreTheFortySeven := by
  refine ⟨fun x => ⟨?_, ?_⟩, fun p hp => encodedAs_of_header ?_, fun p hp => encodedAs_of_header ?_,
    length_legalHeaders⟩
  · rw [decode_append]; rfl
  · rw [decode_append]; rfl
  · revert p
    decide
  · revert p
    decide

/-- A number below 256 has the four fields of a header. -/
theorem exists_fields {H : Nat} (h : H < 256) : ∃ (op : BitVec 3) (st dt : BitVec 2) (r : BitVec 1),
    H = 32 * op.toNat + 8 * st.toNat + 2 * dt.toNat + r.toNat :=
  ⟨BitVec.ofNat 3 (H / 32), BitVec.ofNat 2 (H / 8), BitVec.ofNat 2 (H / 2), BitVec.ofNat 1 H, by
    simp only [BitVec.toNat_ofNat]; omega⟩

/-- A word with no instruction raises the flag. -/
theorem presentWord_of_error {W : CommandWord} {c : IllegalCause} (h : decode W = .error c) (s : State) :
    presentWord W s = .next (raiseIllegal s) := by
  rw [presentWord, h]

/-- Settles O6: each row is read off the four small fields of the header, which are run through; the illegal headers are
what the legal ones leave of the 256. -/
theorem illegalHeadersByCause : Obligations.IllegalHeadersByCause := by
  refine ⟨fun H hH => ?_, ?_, fun W c s h => presentWord_of_error h s⟩
  · obtain ⟨op, st, dt, r, rfl⟩ := exists_fields hH
    clear hH
    revert op st dt r
    decide
  · have hsplit := List.length_eq_length_filter_add (l := List.range 256)
      fun H => legalWord (BitVec.ofNat 8 H ++ 0#32)
    rw [List.length_range, length_legalHeaders] at hsplit
    omega

/-- Settles O7: the seven words and the odd OVD header, run through the decoder. -/
theorem wordsOfEachFamilyDecode : Obligations.WordsOfEachFamilyDecode := by
  unfold Obligations.WordsOfEachFamilyDecode
  decide

/-! ### Pseudo-instructions (R64) -/

/-- A well-formed form names an instruction, and is the form it is written in. -/
theorem exists_toInstr_of_wf {f : Form} (h : f.wf = true) : ∃ i, f.toInstr = some i ∧ i.form = f := by
  rw [wf_iff_toInstr] at h
  obtain ⟨i, hi⟩ := Option.isSome_iff_exists.mp h
  exact ⟨i, hi, form_of_toInstr hi⟩

theorem formsInstrs_pair {f g : Form} {i j : Instr} (hf : f.toInstr = some i) (hg : g.toInstr = some j) :
    formsInstrs [f, g] = some [i, j] := by
  simp [formsInstrs, hf, hg]

theorem execEach_pair {i j : Instr} {s t u : State} (hi : exec i s = .next t) (hj : exec j t = .next u) :
    execEach [i, j] s = .next u := by
  simp [execEach, hi, hj]

/-- Settles O51: each expansion names its instructions, whose effects are known by their forms. -/
theorem pseudoInstructionsAbbreviate : Obligations.PseudoInstructionsAbbreviate := by
  refine ⟨fun imm s => ?_, fun t s => ?_, fun a d had => ?_, fun t => ?_, fun r t s => ?_⟩
  · exact ⟨[.ld .D imm], [.ld .S imm], rfl, rfl, rfl, rfl⟩
  · cases t <;> exact ⟨_, rfl, rfl⟩
  · obtain ⟨i, hi, -⟩ := exists_toInstr_of_wf (f := .cvt .S a d) (decide_eq_true had)
    obtain ⟨j, hj, -⟩ := exists_toInstr_of_wf (f := .ovd d d) rfl
    exact ⟨i, j, hi, hj, formsInstrs_pair hi hj⟩
  · cases t <;> rfl
  · obtain ⟨i, hi, hdesc⟩ := exists_toInstr_of_wf (f := .desc t) rfl
    obtain ⟨j, hj, hraw⟩ := exists_toInstr_of_wf (f := .raw r t) rfl
    have hread : readReg r (writeDesc (descriptor t) s) = readReg r s := by cases r <;> rfl
    refine ⟨i, j, _, hi, hj, formsInstrs_pair hi hj, execEach_pair (exec_desc hdesc s) (exec_raw hraw _), rfl, rfl, rfl,
      ?_, ofNat_lenOf_toNat t, ?_⟩
    · cases t <;> rfl
    · rw [rawBytes_writeRaw, hread]

/-! ### The assembler (R63; log entry 13) -/

/-- Settles O54: the fixed texts, run through the assembler. -/
theorem assemblerWritesTheVectorsWords : Obligations.AssemblerWritesTheVectorsWords := by
  unfold Obligations.AssemblerWritesTheVectorsWords
  decide

end Sys2Proof.Machine

/-! PROOFS. NOP and LD of 40_moves_and_constants.md: their effect, their headers and the illegal headers beside them
(R70, R72). -/

namespace Sys2Proof.Machine

/-! ### Legality is the header's (R61) -/

/-- Whether a word is legal does not depend on its immediate: LD's group hands the immediate on, but does not test it. -/
theorem legalWord_congr_imm (H : Header) (x y : Word) : legalWord (H ++ x) = legalWord (H ++ y) := by
  by_cases hop : opOf H = 1#3
  · simp only [legalWord, decode_append, decodeHeader, hop]
    by_cases hfields : stOf H = 0#2 ∧ dtOf H = 0#2 <;> simp [hfields]
  · simp only [legalWord, decode_append, decodeHeader_congr_imm hop x y]

/-- A header that is illegal above the immediate 0 is illegal above every immediate. -/
theorem legalWord_of_decodeHeader_error {H : Header} {c : IllegalCause} (h : decodeHeader H 0#32 = .error c) (x : Word) :
    legalWord (H ++ x) = false := by
  rw [legalWord_congr_imm H x 0#32, legalWord, decode_append, h]

/-! ### NOP and LD (R70, R72) -/

/-- Settles O21: the effect by NOP's form, its header by the encoding, the illegal headers by their cause. -/
theorem nopChangesNothing : Obligations.NopChangesNothing := by
  obtain ⟨hcause, -, -⟩ := illegalHeadersByCause
  refine ⟨exec_nop rfl, encodedAs_of_header ⟨rfl, rfl⟩, fun H hlo hhi x => ?_⟩
  obtain ⟨hnop, -⟩ := hcause H (by omega)
  exact legalWord_of_decodeHeader_error (hnop.mpr ⟨hlo, hhi⟩) x

/-- Settles O22: the effect by LD's form, its two headers by the table of legal headers, the illegal ones by their cause. -/
theorem ldCopiesTheImmediate : Obligations.LdCopiesTheImmediate := by
  obtain ⟨hld, -⟩ := legalHeadersAreTheFortySeven
  obtain ⟨hcause, -, -⟩ := illegalHeadersByCause
  refine ⟨fun imm s => ⟨exec_ld (r := .D) rfl s, exec_ld (r := .S) rfl s⟩, fun r imm => ?_, fun H hlo hhi x => ?_⟩
  · obtain ⟨hD, hS⟩ := hld imm
    cases r with
    | D => exact hD
    | S => exact hS
  · obtain ⟨-, hfields, -⟩ := hcause H (by omega)
    exact legalWord_of_decodeHeader_error (hfields.mpr ⟨hlo, hhi⟩) x

end Sys2Proof.Machine

/-! PROOFS. DESC and RAW of 41_format_descriptor.md: the descriptor latched, the bytes shown, and their headers
(R81 to R86). -/

namespace Sys2Proof.Machine

/-! ### RAW (R84 to R86) -/

/-- The bytes of a register as a type are its channels in order. -/
theorem bytesOf_eq_map_channel (ty : PixelType) (p : Word) :
    bytesOf ty p = (List.range (lenOf ty)).map fun j => BitVec.ofNat 8 (channel p j) :=
  List.map_congr_left fun j _ => by rw [← lane_toNat, BitVec.ofNat_toNat, BitVec.setWidth_eq]

/-- The bytes of a register as a type are blind to the lanes the type does not read. -/
theorem bytesOf_and_maskOf (ty : PixelType) (p : Word) : bytesOf ty (p &&& maskOf ty) = bytesOf ty p :=
  List.map_congr_left fun j hj => by rw [lane_and_maskOf, if_pos (List.mem_range.mp hj)]

/-- RAW shows the low lanes of its register: their number, their value in O, and their bytes in order. -/
theorem raw_shows_low_lanes {i : Instr} {r : PixReg} {ty : PixelType} (h : i.form = .raw r ty) (s : State) :
    ∃ o : Word, o.toNat = (readReg r s).toNat % 2 ^ (8 * lenOf ty) ∧ exec i s = .next (writeRaw o (lenOf ty) s) ∧
      rawBytes (writeRaw o (lenOf ty) s) =
        (List.range (lenOf ty)).map fun j => BitVec.ofNat 8 (channel (readReg r s) j) :=
  ⟨_, and_maskOf_toNat ty _, exec_raw h s, (rawBytes_writeRaw ty _ s).trans (bytesOf_eq_map_channel ty _)⟩

/-- CVT RGBA to RGB keeps the low three lanes of its register (R91). -/
theorem exec_cvtRgbaRgb (r : PixReg) (s : State) :
    exec (.cvtRgbaRgb r) s = .next (writeReg r (readReg r s &&& maskOf .rgb) s) := by
  rw [maskOf, and_mask_rgb]
  rfl

/-- RAW RGB after CVT RGBA to RGB shows the bytes it shows without the conversion (R85). -/
theorem rawBytes_rawRgb_after_cvtRgbaRgb {r : PixReg} {s t : State} (ht : exec (.rawRgb r) s = .next t) :
    ∃ u, execEach [.cvtRgbaRgb r, .rawRgb r] s = .next u ∧ rawBytes u = rawBytes t := by
  cases (exec_raw (i := .rawRgb r) rfl s).symm.trans ht
  refine ⟨_, execEach_pair (exec_cvtRgbaRgb r s) (exec_raw rfl _), ?_⟩
  rw [rawBytes_writeRaw, rawBytes_writeRaw, readReg_writeReg, bytesOf_and_maskOf]

/-- Settles O26: one effect for the three types, the whole register being what RGBA reads, and the headers by the
encoding. -/
theorem rawSerialisesTheLowLanes : Obligations.RawSerialisesTheLowLanes := by
  refine ⟨fun r s => ?gray, fun r s => ?rgb, fun r s => ?rgba⟩
  case gray =>
    obtain ⟨o, ho, hexec, hbytes⟩ := raw_shows_low_lanes (i := .rawGray r) rfl s
    exact ⟨o, ho, hexec, hbytes, encodedAs_of_header ⟨rfl, by cases r <;> rfl⟩⟩
  case rgb =>
    obtain ⟨o, ho, hexec, hbytes⟩ := raw_shows_low_lanes (i := .rawRgb r) rfl s
    exact ⟨o, ho, hexec, hbytes, encodedAs_of_header ⟨rfl, by cases r <;> rfl⟩,
      rawBytes_rawRgb_after_cvtRgbaRgb hexec⟩
  case rgba =>
    obtain ⟨o, ho, hexec, hbytes⟩ := raw_shows_low_lanes (i := .rawRgba r) rfl s
    obtain rfl : o = readReg r s := BitVec.eq_of_toNat_eq (ho.trans (Nat.mod_eq_of_lt (readReg r s).isLt))
    exact ⟨hexec, hbytes, encodedAs_of_header ⟨rfl, by cases r <;> rfl⟩⟩

/-! ### DESC (R81 to R83) -/

/-- Settles O25: the effect by DESC's form, its headers by the encoding, the fields by evaluation, the illegal headers by
their cause. -/
theorem descLatchesTheDescriptor : Obligations.DescLatchesTheDescriptor := by
  obtain ⟨hcause, -, -⟩ := illegalHeadersByCause
  refine fun s => ⟨exec_desc (t := .gray) rfl s, exec_desc (t := .rgb) rfl s, exec_desc (t := .rgba) rfl s,
    encodedAs_of_header ⟨rfl, rfl⟩, encodedAs_of_header ⟨rfl, rfl⟩, encodedAs_of_header ⟨rfl, rfl⟩,
    by decide, by decide, by decide, fun H hH x => ?_⟩
  have hrow : H < 256 ∧ ((0x41 ≤ H ∧ H ≤ 0x47) ∨ (0x49 ≤ H ∧ H ≤ 0x4F) ∨ (0x51 ≤ H ∧ H ≤ 0x5F)) := by
    revert H
    decide
  obtain ⟨hlt, hdesc⟩ := hrow
  obtain ⟨-, -, hfields, -⟩ := hcause H hlt
  exact legalWord_of_decodeHeader_error (hfields.mpr hdesc) x

end Sys2Proof.Machine

/-! PROOFS. CVT of 42_conversion.md: the laws of the color_converter on pixel values, the conversions as instructions and
in pairs, the new value of the register as a number, and their headers (R90 to R97). -/

namespace Sys2Proof.Machine

/-! ### Pixels and registers (R24, R25) -/

@[simp] theorem asGray_ofGray (x : Grayscale8) : asGray (ofGray x) = x := by
  rw [asGray, ofGray, lane0_pack1]

@[simp] theorem asRgb_ofRgb (x : RGB8) : asRgb (ofRgb x) = x := by
  rw [asRgb, ofRgb, lane0_pack3, lane1_pack3, lane2_pack3]

@[simp] theorem asRgba_ofRgba (x : RGBA8) : asRgba (ofRgba x) = x := by
  rw [asRgba, ofRgba, lane0_pack4, lane1_pack4, lane2_pack4, lane3_pack4]

/-- A register read as GRAY and written back loses its ignored lanes. -/
theorem ofGray_asGray (p : Word) : ofGray (asGray p) = p &&& 0x000000FF#32 := (and_mask_gray p).symm

/-- A register read as RGB and written back loses its ignored lane. -/
theorem ofRgb_asRgb (p : Word) : ofRgb (asRgb p) = p &&& 0x00FFFFFF#32 := (and_mask_rgb p).symm

theorem ofRgb_inj {x y : RGB8} : ofRgb x = ofRgb y ↔ x = y :=
  ⟨fun h => by rw [← asRgb_ofRgb x, h, asRgb_ofRgb], congrArg ofRgb⟩

/-! ### The color_converter on pixel values (R91 to R97) -/

/-- R97 (a): the alpha added is the alpha dropped. -/
@[simp] theorem rgbaToRgb_rgbToRgba (x : RGB8) : rgbaToRgb (rgbToRgba x) = x := rfl

/-- R97 (b): the luminance of a grey is that grey. -/
@[simp] theorem rgbToGray_grayToRgb (x : Grayscale8) : rgbToGray (grayToRgb x) = x := by
  rw [rgbToGray, grayToRgb, lum8_grey]

/-- R95: GRAY to RGBA goes by way of RGB. -/
theorem grayToRgba_eq (x : Grayscale8) : grayToRgba x = rgbToRgba (grayToRgb x) := rfl

/-- R97 (b), by way of RGBA. -/
@[simp] theorem rgbaToGray_grayToRgba (x : Grayscale8) : rgbaToGray (grayToRgba x) = x := by
  rw [rgbaToGray, grayToRgba_eq, rgbaToRgb_rgbToRgba, rgbToGray_grayToRgb]

/-- The colour of a register read as RGBA is the register read as RGB. -/
@[simp] theorem rgbaToRgb_asRgba (p : Word) : rgbaToRgb (asRgba p) = asRgb p := rfl

/-- R97 (d): a colour is its own luminance three times over only if it is grey. -/
theorem grayToRgb_rgbToGray_eq_iff (x : RGB8) : grayToRgb (rgbToGray x) = x ↔ x.r = x.g ∧ x.g = x.b := by
  obtain ⟨r, g, b⟩ := x
  simp only [grayToRgb, rgbToGray, RGB8.mk.injEq]
  constructor
  · rintro ⟨hr, hg, hb⟩
    exact ⟨hr.symm.trans hg, hg.symm.trans hb⟩
  · rintro ⟨rfl, rfl⟩
    simp only [lum8_grey, and_self]

/-! ### The new value of the register as a number -/

/-- The low 24 bits are the three colour channels. -/
theorem toNat_mod_eq_channels (p : Word) :
    p.toNat % 2 ^ 24 = channel p 0 + 256 * channel p 1 + 65536 * channel p 2 := by
  have := channel_lt p 0; have := channel_lt p 1; have := channel_lt p 2
  rw [word_toNat p]
  omega

theorem ofRgba_rgbToRgba_toNat (p : Word) :
    (ofRgba (rgbToRgba (asRgb p))).toNat = p.toNat % 2 ^ 24 + 255 * 2 ^ 24 := by
  have hopaque : Config.opaqueWeight.toNat = 255 := rfl
  simp only [ofRgba, rgbToRgba, asRgb, pack4_toNat, lane_toNat, hopaque, toNat_mod_eq_channels]
  omega

theorem ofRgb_grayToRgb_toNat (x : Grayscale8) : (ofRgb (grayToRgb x)).toNat = x.v.toNat * 0x010101 := by
  simp only [ofRgb, grayToRgb, pack3_toNat]
  omega

theorem ofRgba_grayToRgba_toNat (x : Grayscale8) :
    (ofRgba (grayToRgba x)).toNat = x.v.toNat * 0x010101 + 255 * 2 ^ 24 := by
  have hopaque : Config.opaqueWeight.toNat = 255 := rfl
  simp only [ofRgba, grayToRgba, pack4_toNat, hopaque]
  omega

theorem rgbToGray_asRgb_toNat (p : Word) : (rgbToGray (asRgb p)).v.toNat = luminance p := by
  simp only [rgbToGray, asRgb, lum8_toNat, lane_toNat, luminance]

theorem ofGray_rgbToGray_toNat (p : Word) : (ofGray (rgbToGray (asRgb p))).toNat = luminance p := by
  rw [ofGray, pack1_toNat, rgbToGray_asRgb_toNat]

/-! ### Setting alpha to 255 (R97 (c)) -/

/-- Lane 3 set to 255 is the OR with its mask. -/
theorem ofRgba_rgbToRgba_asRgb (p : Word) : ofRgba (rgbToRgba (asRgb p)) = p ||| 0xFF000000#32 := by
  have hlane : ∀ i, lane (p ||| 0xFF000000#32) i = lane p i ||| lane 0xFF000000#32 i := fun _ => BitVec.extractLsb'_or
  have hkeep : ∀ b : Byte, b ||| 0#8 = b := fun _ => BitVec.or_zero
  have hfull : ∀ b : Byte, b ||| 255#8 = 255#8 := fun _ => BitVec.or_allOnes
  calc ofRgba (rgbToRgba (asRgb p))
      = pack4 (lane p 0 ||| 0#8) (lane p 1 ||| 0#8) (lane p 2 ||| 0#8) (lane p 3 ||| 255#8) := by
        rw [hkeep, hkeep, hkeep, hfull]; rfl
    _ = p ||| 0xFF000000#32 := by
        rw [← pack4_lanes (p ||| 0xFF000000#32), hlane, hlane, hlane, hlane]; rfl

/-- Only an opaque pixel has its alpha already. -/
theorem or_alpha_mask_eq_iff (p : Word) : p ||| 0xFF000000#32 = p ↔ channel p 3 = 255 := by
  rw [← BitVec.toNat_inj, ← ofRgba_rgbToRgba_asRgb, ofRgba_rgbToRgba_toNat, toNat_mod_eq_channels, word_toNat p]
  omega

/-! ### The conversions as instructions (R91 to R96) -/

/-- The pixel form of `exec_cvtRgbaRgb`. -/
theorem exec_cvtRgbaRgb_pixel (r : PixReg) (s : State) :
    exec (.cvtRgbaRgb r) s = .next (writeReg r (ofRgb (rgbaToRgb (asRgba (readReg r s)))) s) := rfl

theorem exec_cvtRgbRgba (r : PixReg) (s : State) :
    exec (.cvtRgbRgba r) s = .next (writeReg r (ofRgba (rgbToRgba (asRgb (readReg r s)))) s) := rfl

theorem exec_cvtGrayRgb (r : PixReg) (s : State) :
    exec (.cvtGrayRgb r) s = .next (writeReg r (ofRgb (grayToRgb (asGray (readReg r s)))) s) := rfl

theorem exec_cvtRgbGray (r : PixReg) (s : State) :
    exec (.cvtRgbGray r) s = .next (writeReg r (ofGray (rgbToGray (asRgb (readReg r s)))) s) := rfl

theorem exec_cvtGrayRgba (r : PixReg) (s : State) :
    exec (.cvtGrayRgba r) s = .next (writeReg r (ofRgba (grayToRgba (asGray (readReg r s)))) s) := rfl

theorem exec_cvtRgbaGray (r : PixReg) (s : State) :
    exec (.cvtRgbaGray r) s = .next (writeReg r (ofGray (rgbaToGray (asRgba (readReg r s)))) s) := rfl

/-- Two writes of one register in a row leave the second. -/
theorem execEach_writeReg_pair {i j : Instr} {r : PixReg} {v w : Word} {s : State}
    (hi : exec i s = .next (writeReg r v s)) (hj : exec j (writeReg r v s) = .next (writeReg r w (writeReg r v s))) :
    execEach [i, j] s = .next (writeReg r w s) := by
  rw [execEach_pair hi hj, writeReg_writeReg]

/-- R95: the two steps of GRAY to RGBA. -/
theorem execEach_grayRgb_rgbRgba (r : PixReg) (s : State) :
    execEach [.cvtGrayRgb r, .cvtRgbRgba r] s = exec (.cvtGrayRgba r) s := by
  rw [execEach_writeReg_pair (exec_cvtGrayRgb r s) (exec_cvtRgbRgba r _), exec_cvtGrayRgba, readReg_writeReg,
    asRgb_ofRgb, grayToRgba_eq]

/-- R96: the two steps of RGBA to GRAY. -/
theorem execEach_rgbaRgb_rgbGray (r : PixReg) (s : State) :
    execEach [.cvtRgbaRgb r, .cvtRgbGray r] s = exec (.cvtRgbaGray r) s := by
  rw [execEach_writeReg_pair (exec_cvtRgbaRgb_pixel r s) (exec_cvtRgbGray r _), exec_cvtRgbaGray, readReg_writeReg,
    asRgb_ofRgb, rgbaToGray]

/-! ### Round trips (R97) -/

theorem execEach_rgbRgba_rgbaRgb (r : PixReg) (s : State) :
    execEach [.cvtRgbRgba r, .cvtRgbaRgb r] s = .next (writeReg r (readReg r s &&& 0x00FFFFFF#32) s) := by
  rw [execEach_writeReg_pair (exec_cvtRgbRgba r s) (exec_cvtRgbaRgb_pixel r _), readReg_writeReg, asRgba_ofRgba,
    rgbaToRgb_rgbToRgba, ofRgb_asRgb]

theorem execEach_grayRgb_rgbGray (r : PixReg) (s : State) :
    execEach [.cvtGrayRgb r, .cvtRgbGray r] s = .next (writeReg r (readReg r s &&& 0x000000FF#32) s) := by
  rw [execEach_writeReg_pair (exec_cvtGrayRgb r s) (exec_cvtRgbGray r _), readReg_writeReg, asRgb_ofRgb,
    rgbToGray_grayToRgb, ofGray_asGray]

theorem execEach_grayRgba_rgbaGray (r : PixReg) (s : State) :
    execEach [.cvtGrayRgba r, .cvtRgbaGray r] s = .next (writeReg r (readReg r s &&& 0x000000FF#32) s) := by
  rw [execEach_writeReg_pair (exec_cvtGrayRgba r s) (exec_cvtRgbaGray r _), readReg_writeReg, asRgba_ofRgba,
    rgbaToGray_grayToRgba, ofGray_asGray]

theorem execEach_rgbaRgb_rgbRgba (r : PixReg) (s : State) :
    execEach [.cvtRgbaRgb r, .cvtRgbRgba r] s = .next (writeReg r (readReg r s ||| 0xFF000000#32) s) := by
  rw [execEach_writeReg_pair (exec_cvtRgbaRgb_pixel r s) (exec_cvtRgbRgba r _), readReg_writeReg, asRgb_ofRgb,
    rgbaToRgb_asRgba, ofRgba_rgbToRgba_asRgb]

theorem execEach_rgbGray_grayRgb (r : PixReg) (s : State) :
    execEach [.cvtRgbGray r, .cvtGrayRgb r] s =
      .next (writeReg r (ofRgb (grayToRgb (rgbToGray (asRgb (readReg r s))))) s) := by
  rw [execEach_writeReg_pair (exec_cvtRgbGray r s) (exec_cvtGrayRgb r _), readReg_writeReg, asGray_ofGray]

/-- The luminance three times over is the register's colour only if its three channels agree. -/
theorem ofRgb_grayToRgb_rgbToGray_eq_iff (p : Word) :
    ofRgb (grayToRgb (rgbToGray (asRgb p))) = p &&& 0x00FFFFFF#32 ↔
      channel p 0 = channel p 1 ∧ channel p 1 = channel p 2 := by
  rw [← ofRgb_asRgb, ofRgb_inj, grayToRgb_rgbToGray_eq_iff]
  simp only [asRgb, ← BitVec.toNat_inj, lane_toNat]

/-- A conversion does the same from two states whose registers read alike as its source type. -/
theorem exec_cvt_reads_source_type {i : Instr} {r : PixReg} {a b : PixelType} {s : State} {p : Word}
    (h : i.form = .cvt r a b) (hp : sameAs (some a) p (readReg r s) = true) :
    ∃ v : Word, canonical b v = true ∧ exec i s = .next (writeReg r v s) ∧
      exec i (writeReg r p s) = .next (writeReg r v s) := by
  obtain ⟨f, hreads, hcanonical, hexec⟩ := exec_cvt h
  refine ⟨f (readReg r s), hcanonical _, hexec s, ?_⟩
  rw [hexec, convertReg, readReg_writeReg, writeReg_writeReg, hreads _ _ hp]

/-! ### The statements -/

/-- Settles O28: masking to RGB, as a number the remainder by 2^24. -/
theorem cvtRgbaToRgbDropsAlpha : Obligations.CvtRgbaToRgbDropsAlpha := fun r s =>
  ⟨encodedAs_of_header ⟨rfl, by cases r <;> rfl⟩, _, exec_cvtRgbaRgb r s, and_maskOf_toNat .rgb _⟩

/-- Settles O29: the packed colour under alpha 255, as a number. -/
theorem cvtRgbToRgbaSetsAlpha255 : Obligations.CvtRgbToRgbaSetsAlpha255 := fun r s =>
  ⟨encodedAs_of_header ⟨rfl, by cases r <;> rfl⟩, _, exec_cvtRgbRgba r s, ofRgba_rgbToRgba_toNat _⟩

/-- Settles O30: one channel packed three times, as a number. -/
theorem cvtGrayToRgbReplicates : Obligations.CvtGrayToRgbReplicates := by
  refine fun r s => ⟨encodedAs_of_header ⟨rfl, by cases r <;> rfl⟩, _, exec_cvtGrayRgb r s, ?_⟩
  rw [ofRgb_grayToRgb_toNat, asGray, lane_toNat]

/-- Settles O31: the luminance of the colour channels, packed alone. -/
theorem cvtRgbToGrayAverages : Obligations.CvtRgbToGrayAverages := fun r s =>
  ⟨encodedAs_of_header ⟨rfl, by cases r <;> rfl⟩, _, exec_cvtRgbGray r s, ofGray_rgbToGray_toNat _⟩

/-- Settles O32: one channel packed three times under alpha 255, which is the composition's pixel. -/
theorem cvtGrayToRgbaReplicatesOpaque : Obligations.CvtGrayToRgbaReplicatesOpaque := by
  refine fun r s => ⟨encodedAs_of_header ⟨rfl, by cases r <;> rfl⟩, execEach_grayRgb_rgbRgba r s, _,
    exec_cvtGrayRgba r s, ?_⟩
  rw [ofRgba_grayToRgba_toNat, asGray, lane_toNat]

/-- Settles O33: alpha is dropped first, so the value is that of RGB to GRAY. -/
theorem cvtRgbaToGrayIgnoresAlpha : Obligations.CvtRgbaToGrayIgnoresAlpha := fun r s =>
  ⟨encodedAs_of_header ⟨rfl, by cases r <;> rfl⟩, execEach_rgbaRgb_rgbGray r s, _, exec_cvtRgbaGray r s,
    ofGray_rgbToGray_toNat _⟩

/-- Settles O34: each pair of conversions by the law of its pixel functions; the last clause by what every CVT reads and
writes. -/
theorem conversionLaws : Obligations.ConversionLaws := by
  refine ⟨fun r s => ⟨execEach_rgbRgba_rgbaRgb r s, execEach_grayRgb_rgbGray r s, execEach_grayRgba_rgbaGray r s,
    execEach_rgbaRgb_rgbRgba r s, or_alpha_mask_eq_iff _,
    ⟨_, execEach_rgbGray_grayRgb r s, ?_, ofRgb_grayToRgb_rgbToGray_eq_iff _⟩, execEach_rgbaRgb_rgbGray r s⟩,
    fun i r a b s p => exec_cvt_reads_source_type⟩
  rw [ofRgb_grayToRgb_toNat, rgbToGray_asRgb_toNat]

end Sys2Proof.Machine

/-! PROOFS. OVD of 43_overdraw.md: the conversions and overdraws as one function of a pair of types each, the channels of
an overdraw, full weight, convert-then-overdraw, and the headers (R101 to R113). -/

namespace Sys2Proof.Machine

/-! ### The converted register value (R90, R101) -/

/-- The ink of a register that holds a pixel of type a, packed as a canonical value of type d. Off the diagonal it is CVT's
value (`exec_cvt_colorConvert`); as a source, it is the pixel an overdraw blends toward (`lane_overdraw`). -/
def colorConvert (a d : PixelType) (p : Word) : Word :=
  let k := inkOf a p
  match d with
  | .gray => pack1 (greyOf a k)
  | .rgb => pack3 k.r k.g k.b
  | .rgba => pack4 k.r k.g k.b k.w

theorem exec_cvt_colorConvert {i : Instr} {r : PixReg} {a d : PixelType} (h : i.form = .cvt r a d) (s : State) :
    exec i s = .next (writeReg r (colorConvert a d (readReg r s)) s) := by
  cases a <;> cases d <;> cases toInstr_of_form h <;> rfl

theorem canonical_colorConvert (a d : PixelType) (p : Word) : canonical d (colorConvert a d p) = true := by
  cases d with
  | gray => exact canonical_pack1 _
  | rgb => exact canonical_pack3 _ _ _
  | rgba => exact canonical_rgba _

/-- A type converts to itself by losing the lanes it does not read. -/
theorem colorConvert_self (d : PixelType) (p : Word) : colorConvert d d p = p &&& maskOf d := by
  cases d with
  | gray => exact (congrArg pack1 (lum8_grey _)).trans (and_mask_gray p).symm
  | rgb => exact (and_mask_rgb p).symm
  | rgba => exact (pack4_lanes p).trans (and_mask_rgba p).symm

theorem colorConvert_of_canonical {d : PixelType} {p : Word} (h : canonical d p = true) : colorConvert d d p = p :=
  (colorConvert_self d p).trans (of_decide_eq_true h)

theorem colorConvert_rgba_rgba (p : Word) : colorConvert .rgba .rgba p = p := colorConvert_of_canonical (canonical_rgba p)

/-! ### The ink as numbers (R101) -/

theorem weight_of_opaque {a : PixelType} (h : a ≠ .rgba) (S : Word) : (inkOf a S).w = Config.opaqueWeight := by
  cases a with
  | gray => rfl
  | rgb => rfl
  | rgba => exact absurd rfl h

theorem weight_rgba_toNat (S : Word) : (inkOf .rgba S).w.toNat = channel S 3 := lane_toNat S 3

theorem weight_rgba_eq_full_iff (S : Word) : (inkOf .rgba S).w = Config.opaqueWeight ↔ channel S 3 = 255 := by
  rw [← BitVec.toNat_inj, weight_rgba_toNat]
  rfl

/-- The grey an overdraw puts on a Grayscale8 destination is the one the statements read. -/
theorem greyOf_inkOf_toNat (a : PixelType) (S : Word) : (greyOf a (inkOf a S)).toNat = sourceChannel a .gray S 0 := by
  cases a with
  | gray => exact (congrArg BitVec.toNat (lum8_grey _)).trans (lane_toNat S 0)
  | rgb => exact rgbToGray_asRgb_toNat S
  | rgba => exact rgbToGray_asRgb_toNat S

/-- The ink's colour is the one the statements read, on either destination with three channels. -/
theorem inkOf_colour_toNat (a : PixelType) {d : PixelType} (hd : d ≠ .gray) (S : Word) :
    (inkOf a S).r.toNat = sourceChannel a d S 0 ∧ (inkOf a S).g.toNat = sourceChannel a d S 1 ∧
      (inkOf a S).b.toNat = sourceChannel a d S 2 := by
  cases d with
  | gray => exact absurd rfl hd
  | rgb | rgba => cases a <;> exact ⟨lane_toNat S _, lane_toNat S _, lane_toNat S _⟩

/-- The converted source holds the colour the statements read. -/
theorem channel_colorConvert (a : PixelType) {d : PixelType} (S : Word) {j : Nat} (hj : j < colourChannels d) :
    channel (colorConvert a d S) j = sourceChannel a d S j := by
  have hcolour := fun hd : d ≠ .gray => inkOf_colour_toNat a hd S
  rw [← lane_toNat]
  cases d with
  | gray =>
    obtain rfl : j = 0 := Nat.lt_one_iff.mp hj
    exact (congrArg BitVec.toNat (lane0_pack1 _)).trans (greyOf_inkOf_toNat a S)
  | rgb | rgba =>
    obtain ⟨hr, hg, hb⟩ := hcolour (by decide)
    simp only [colourChannels] at hj
    interval_cases j <;> simp [colorConvert, hr, hg, hb]

/-- The alpha of an opaque RGBA8 pixel is the one its colour converts to. -/
theorem colorConvert_rgba_of_opaque (d : PixelType) {p : Word} (h : channel p 3 = 255) :
    colorConvert .rgba d p = colorConvert .rgb d p := by
  cases d with
  | gray => rfl
  | rgb => rfl
  | rgba => exact congrArg (pack4 (lane p 0) (lane p 1) (lane p 2)) ((weight_rgba_eq_full_iff p).mpr h)

/-! ### The channels of an overdraw (R101) -/

/-- Every colour lane blends toward the converted source. -/
theorem lane_overdraw (a : PixelType) {d : PixelType} (S D : Word) {j : Nat} (hj : j < colourChannels d) :
    lane (overdraw a d S D) j = blend8 (lane D j) (lane (colorConvert a d S) j) (inkOf a S).w := by
  cases d with
  | gray =>
    obtain rfl : j = 0 := Nat.lt_one_iff.mp hj
    simp only [overdraw, colorConvert, lane0_pack1]
  | rgb | rgba =>
    simp only [colourChannels] at hj
    interval_cases j <;> simp [overdraw, colorConvert]

/-- A colour channel of an overdraw, in integers (R9). -/
theorem channel_overdraw (a : PixelType) {d : PixelType} (S D : Word) {j : Nat} (hj : j < colourChannels d) :
    (channel (overdraw a d S D) j : Int) =
      channel D j + Int.tdiv (((sourceChannel a d S j : Int) - channel D j) * (inkOf a S).w.toNat) 255 := by
  rw [← channel_colorConvert a S hj, ← lane_toNat D, ← lane_toNat (colorConvert a d S),
    ← lane_toNat (overdraw a d S D), lane_overdraw a S D hj, blend8_toInt]

/-- A colour channel of an overdraw lies between the old destination and the source (R103 (d)). -/
theorem channel_overdraw_between (a : PixelType) {d : PixelType} (S D : Word) {j : Nat} (hj : j < colourChannels d) :
    min (channel D j) (sourceChannel a d S j) ≤ channel (overdraw a d S D) j ∧
      channel (overdraw a d S D) j ≤ max (channel D j) (sourceChannel a d S j) := by
  rw [← channel_colorConvert a S hj, ← lane_toNat D, ← lane_toNat (colorConvert a d S),
    ← lane_toNat (overdraw a d S D), lane_overdraw a S D hj]
  exact blend8_between _ _ _

/-- The new alpha of RGBA8 onto RGBA8 (R111). -/
theorem channel_alpha_overdraw_rgba (S D : Word) :
    channel (overdraw .rgba .rgba S D) 3 = min 255 (channel S 3 + channel S 3) := by
  rw [← lane_toNat, ← lane_toNat S]
  exact (congrArg BitVec.toNat (lane3_pack4 _ _ _ _)).trans (sat8_toNat _)

/-! ### Canonical values by their lanes -/

/-- Canonical values of a type are told apart by the lanes it reads. -/
theorem eq_iff_lanes_of_canonical {t : PixelType} {p q : Word} (hp : canonical t p = true) (hq : canonical t q = true) :
    p = q ↔ ∀ j < lenOf t, lane p j = lane q j := by
  refine ⟨fun h _ _ => by rw [h], fun h => ?_⟩
  have hlane : ∀ j, lane (p &&& maskOf t) j = lane (q &&& maskOf t) j := fun j => by
    rw [lane_and_maskOf, lane_and_maskOf]
    split
    next hj => exact h j hj
    next => rfl
  have hmask : p &&& maskOf t = q &&& maskOf t := by
    rw [← pack4_lanes (p &&& maskOf t), hlane, hlane, hlane, hlane, pack4_lanes]
  rwa [of_decide_eq_true hp, of_decide_eq_true hq] at hmask

/-- A canonical value is below the size of its type. -/
theorem toNat_lt_of_canonical {t : PixelType} {p : Word} (h : canonical t p = true) : p.toNat < 2 ^ (8 * lenOf t) :=
  of_decide_eq_true (p := p &&& maskOf t = p) h ▸ and_maskOf_lt t p

/-! ### Full and zero weight (R103) -/

/-- At full weight the new alpha is full, in every row of the table. -/
theorem newAlpha_of_full_weight {k : Ink} (h : k.w = Config.opaqueWeight) (a : PixelType) (da : Byte) :
    newAlpha a k da = Config.opaqueWeight := by
  cases a with
  | gray => rfl
  | rgb => rfl
  | rgba =>
    rw [newAlpha, h]
    rfl

/-- A source of full weight replaces the destination by its conversion, in all nine cells. -/
theorem overdraw_of_full_weight {a : PixelType} {S : Word} (h : (inkOf a S).w = Config.opaqueWeight) (d : PixelType)
    (D : Word) : overdraw a d S D = colorConvert a d S := by
  cases d with
  | gray => simp only [overdraw, colorConvert, h, blend8_opaque]
  | rgb => simp only [overdraw, colorConvert, h, blend8_opaque]
  | rgba => simp only [overdraw, colorConvert, newAlpha_of_full_weight h, h, blend8_opaque]

/-- Onto RGBA8, an opaque RGBA8 source is copied whole (R103 (c)). -/
theorem overdraw_rgba_rgba_of_opaque {S : Word} (h : channel S 3 = 255) (D : Word) : overdraw .rgba .rgba S D = S := by
  rw [overdraw_of_full_weight ((weight_rgba_eq_full_iff S).mpr h), colorConvert_rgba_rgba]

/-- Zero weight leaves the colour of a destination with three channels, and takes away its alpha (R103 (b)). -/
theorem overdraw_of_zero_weight {S : Word} (h : channel S 3 = 0) {d : PixelType} (hd : d ≠ .gray) (D : Word) :
    overdraw .rgba d S D = D &&& 0x00FFFFFF#32 := by
  have hw : lane S 3 = 0#8 := BitVec.eq_of_toNat_eq ((lane_toNat S 3).trans h)
  rw [and_mask_rgb]
  cases d with
  | gray => exact absurd rfl hd
  | rgb => simp only [overdraw, inkOf, hw, blend8_zero_weight]
  | rgba =>
    simp only [overdraw, inkOf, hw, blend8_zero_weight]
    rfl

/-- A blend reaches its source only at full weight or where it starts from it. -/
theorem blend8_eq_source_iff (d s w : Byte) : blend8 d s w = s ↔ w = Config.opaqueWeight ∨ d = s := by
  constructor
  · intro h
    by_contra! hne
    obtain ⟨hw, hds⟩ := hne
    have hw' : w.toNat ≤ 254 := by
      have := w.isLt
      have : w.toNat ≠ 255 := fun h255 => hw (BitVec.eq_of_toNat_eq h255)
      omega
    have hds' : d.toNat ≠ s.toNat := fun hnat => hds (BitVec.eq_of_toNat_eq hnat)
    have hblend := blend8_toInt d s w
    rw [h] at hblend
    have hmoved : ((s.toNat : Int) - d.toNat).natAbs = ((s.toNat : Int) - d.toNat).natAbs * w.toNat / 255 :=
      calc ((s.toNat : Int) - d.toNat).natAbs
          = (Int.tdiv (((s.toNat : Int) - d.toNat) * w.toNat) 255).natAbs := by omega
        _ = (((s.toNat : Int) - d.toNat) * w.toNat).natAbs / 255 := Int.natAbs_tdiv _ 255
        _ = ((s.toNat : Int) - d.toNat).natAbs * w.toNat / 255 := by rw [Int.natAbs_mul, Int.natAbs_natCast]
    have := Nat.mul_le_mul_left ((s.toNat : Int) - d.toNat).natAbs hw'
    omega
  · rintro (rfl | rfl)
    · exact blend8_opaque d s
    · exact blend8_same d w

/-! ### The overdraws as instructions -/

/-- Two overdraws in a row blend twice. -/
theorem execEach_ovd_twice {i : Instr} {a d : PixelType} (h : i.form = .ovd a d) (s : State) :
    execEach [i, i] s = .next (writeReg .D (overdraw a d s.S (overdraw a d s.S s.D)) s) :=
  execEach_writeReg_pair (exec_ovd h s) (exec_ovd h _)

/-- An opaque source replaces D by its conversion (R102). -/
theorem exec_ovd_opaque {i : Instr} {a d : PixelType} (h : i.form = .ovd a d) (ha : a ≠ .rgba) (s : State) :
    exec i s = .next (writeReg .D (colorConvert a d s.S) s) := by
  rw [exec_ovd h, overdraw_of_full_weight (weight_of_opaque ha s.S)]

/-- R103 (a): twice as once. -/
theorem execEach_ovd_opaque_twice {i : Instr} {a d : PixelType} (h : i.form = .ovd a d) (ha : a ≠ .rgba) (s : State) :
    execEach [i, i] s = .next (writeReg .D (colorConvert a d s.S) s) :=
  execEach_writeReg_pair (exec_ovd_opaque h ha s) (exec_ovd_opaque h ha _)

/-- An RGBA8 source of alpha 255 does as its colour does alone (R103 (e)). -/
theorem exec_ovd_rgba_of_opaque {i j : Instr} {d : PixelType} (hi : i.form = .ovd .rgba d) (hj : j.form = .ovd .rgb d)
    {s : State} (h : channel s.S 3 = 255) : exec i s = exec j s := by
  rw [exec_ovd hi, exec_ovd_opaque hj (by decide), overdraw_of_full_weight ((weight_rgba_eq_full_iff s.S).mpr h),
    colorConvert_rgba_of_opaque d h]

/-- An RGBA8 source of alpha 0 takes from D its lane 3 alone (R103 (b)). -/
theorem exec_ovd_rgba_of_zero_weight {i : Instr} {d : PixelType} (h : i.form = .ovd .rgba d) (hd : d ≠ .gray) {s : State}
    (hzero : channel s.S 3 = 0) : exec i s = .next (writeReg .D (s.D &&& 0x00FFFFFF#32) s) := by
  rw [exec_ovd h, overdraw_of_zero_weight hzero hd]

/-- Where the second blend changes D again, twice is not once. -/
theorem execEach_ovd_twice_ne {i : Instr} {a d : PixelType} (h : i.form = .ovd a d) {s : State}
    (hne : overdraw a d s.S (overdraw a d s.S s.D) ≠ overdraw a d s.S s.D) : execEach [i, i] s ≠ exec i s := by
  rw [execEach_ovd_twice h, exec_ovd h]
  intro heq
  injection heq with hstate
  exact hne (congrArg State.D hstate)

/-! ### Convert, then overdraw (R113) -/

/-- A conversion of S, unless from RGBA8 to itself, is an opaque pixel of its type, so the overdraw after it replaces. -/
theorem overdraw_colorConvert {a d : PixelType} (h : a ≠ .rgba ∨ d ≠ .rgba) (S D : Word) :
    overdraw d d (colorConvert a d S) D = colorConvert a d S := by
  have hweight : (inkOf d (colorConvert a d S)).w = Config.opaqueWeight := by
    cases d with
    | gray => rfl
    | rgb => rfl
    | rgba => exact (lane3_pack4 _ _ _ _).trans (weight_of_opaque (h.resolve_right (not_not_intro rfl)) S)
  rw [overdraw_of_full_weight hweight, colorConvert_of_canonical (canonical_colorConvert a d S)]

/-- CVT of S to the destination type and then the overdraw within it leave the converted source in D and S. -/
theorem execEach_cvt_ovd {i j : Instr} {a d : PixelType} (hi : i.form = .cvt .S a d) (hj : j.form = .ovd d d)
    (h : a ≠ .rgba ∨ d ≠ .rgba) (s : State) :
    execEach [i, j] s = .next (writeReg .D (colorConvert a d s.S) (writeReg .S (colorConvert a d s.S) s)) := by
  rw [execEach_pair (exec_cvt_colorConvert hi s) (exec_ovd hj _)]
  exact congrArg (fun v => Host.Outcome.next (writeReg .D v (writeReg .S (colorConvert a d s.S) s)))
    (overdraw_colorConvert h s.S s.D)

/-- The expansion of CVTOVD leaves the converted source in D and S. -/
theorem execEach_cvtovd {a d : PixelType} {is : List Instr} (had : a ≠ d)
    (h : Pseudo.expand (.cvtovd a d) = some is) (s : State) :
    execEach is s = .next (writeReg .D (colorConvert a d s.S) (writeReg .S (colorConvert a d s.S) s)) := by
  obtain ⟨i, hi, hcvt⟩ := exists_toInstr_of_wf (f := .cvt .S a d) (decide_eq_true had)
  obtain ⟨j, hj, hovd⟩ := exists_toInstr_of_wf (f := .ovd d d) rfl
  cases (formsInstrs_pair hi hj).symm.trans h
  refine execEach_cvt_ovd hcvt hovd ?_ s
  by_contra! hboth
  obtain ⟨rfl, rfl⟩ := hboth
  exact had rfl

/-- Onto a destination without alpha, an RGBA8 source leaves its conversion exactly if it is opaque or every channel of
D is there already. -/
theorem overdraw_rgba_eq_colorConvert_iff {d : PixelType} (hd : d ≠ .rgba) (S D : Word) :
    overdraw .rgba d S D = colorConvert .rgba d S ↔
      channel S 3 = 255 ∨ ∀ j < colourChannels d, channel D j = sourceChannel .rgba d S j := by
  have hlen : lenOf d = colourChannels d := by
    cases d with
    | gray => rfl
    | rgb => rfl
    | rgba => exact absurd rfl hd
  have hlane : ∀ j < colourChannels d,
      (lane (overdraw .rgba d S D) j = lane (colorConvert .rgba d S) j ↔
        channel S 3 = 255 ∨ channel D j = sourceChannel .rgba d S j) := fun j hj => by
    rw [lane_overdraw .rgba S D hj, blend8_eq_source_iff, weight_rgba_eq_full_iff, ← BitVec.toNat_inj (x := lane D j),
      lane_toNat, lane_toNat, channel_colorConvert .rgba S hj]
  rw [eq_iff_lanes_of_canonical (canonical_overdraw _ _ _ _) (canonical_colorConvert _ _ _), hlen, forall₂_congr hlane]
  by_cases hopaque : channel S 3 = 255 <;> simp [hopaque]

/-! ### The statements -/

/-- Settles O35: the RGB8 source converted to itself, which is its low 24 bits. -/
theorem opaqueRgbReplacesRgb : Obligations.OpaqueRgbReplacesRgb := by
  refine ⟨encodedAs_of_header ⟨rfl, rfl⟩, fun s => ⟨_, exec_ovd_opaque (a := .rgb) (d := .rgb) rfl (by decide) s, ?_,
    execEach_ovd_opaque_twice rfl (by decide) s⟩⟩
  rw [colorConvert_self]
  exact and_maskOf_toNat .rgb s.S

/-- Settles O36: the RGB8 source converted to RGBA8, directly or by CVT first. -/
theorem opaqueRgbReplacesRgbaAndForcesAlpha : Obligations.OpaqueRgbReplacesRgbaAndForcesAlpha :=
  ⟨encodedAs_of_header ⟨rfl, rfl⟩, fun s => ⟨_, exec_ovd_opaque (a := .rgb) (d := .rgba) rfl (by decide) s,
    ofRgba_rgbToRgba_toNat s.S, execEach_cvt_ovd rfl rfl (.inl (by decide)) s⟩⟩

/-- Settles O39: the Grayscale8 source converted to itself, which is its channel. -/
theorem graySourceReplacesGray : Obligations.GraySourceReplacesGray :=
  ⟨encodedAs_of_header ⟨rfl, rfl⟩, fun s => ⟨_, exec_ovd_opaque (a := .gray) (d := .gray) rfl (by decide) s,
    (pack1_toNat _).trans (greyOf_inkOf_toNat .gray s.S), execEach_ovd_opaque_twice rfl (by decide) s⟩⟩

/-- Settles O40: the channels of an overdraw at the weight of an RGBA8 source; the value is canonical for RGB8. -/
theorem rgbaSourceBlendsRgb : Obligations.RgbaSourceBlendsRgb := by
  refine ⟨encodedAs_of_header ⟨rfl, rfl⟩, fun s => ⟨_, exec_ovd (a := .rgba) (d := .rgb) rfl s,
    toNat_lt_of_canonical (canonical_overdraw .rgba .rgb s.S s.D), fun j hj => ?_⟩⟩
  rw [channel_overdraw .rgba s.S s.D hj, weight_rgba_toNat]
  rfl

/-- Settles O41: the channels as onto RGB8, the doubled alpha, and the source itself at full weight. -/
theorem rgbaSourceBlendsRgbaAndDoublesAlpha : Obligations.RgbaSourceBlendsRgbaAndDoublesAlpha := by
  refine ⟨encodedAs_of_header ⟨rfl, rfl⟩, fun s => ⟨_, exec_ovd (a := .rgba) (d := .rgba) rfl s,
    channel_alpha_overdraw_rgba s.S s.D, fun j hj => ?_, fun hfull => overdraw_rgba_rgba_of_opaque hfull s.D⟩⟩
  rw [channel_overdraw .rgba s.S s.D hj, weight_rgba_toNat]
  rfl

/-- Settles O42: the one channel, toward the luminance; it is the whole value. -/
theorem rgbaSourceBlendsGray : Obligations.RgbaSourceBlendsGray := by
  refine ⟨encodedAs_of_header ⟨rfl, rfl⟩, fun s => ⟨_, exec_ovd (a := .rgba) (d := .gray) rfl s, ?_⟩⟩
  have hvalue : (overdraw .rgba .gray s.S s.D).toNat = channel (overdraw .rgba .gray s.S s.D) 0 := by
    rw [← lane_toNat]
    exact (pack1_toNat _).trans (congrArg BitVec.toNat (lane0_pack1 _).symm)
  rw [hvalue, channel_overdraw .rgba s.S s.D (by decide), weight_rgba_toNat]
  rfl

/-- White of alpha 128 in S over a black D: an RGBA8 source that goes on changing D when it is drawn again. -/
def halfWhiteOverBlack : State := { State.reset with S := 0x80FFFFFF#32 }

/-- Settles O43: each law by its lemma; half-transparent white over black shows that an RGBA8 source blends twice. -/
theorem overdrawLaws : Obligations.OverdrawLaws := by
  refine ⟨fun i a d s h ha => ?idempotent, ?blendsTwice,
    fun s hzero => ⟨exec_ovd_rgba_of_zero_weight (d := .rgb) rfl (by decide) hzero,
      exec_ovd_rgba_of_zero_weight (d := .rgba) rfl (by decide) hzero⟩,
    fun s hfull => ?fullWeight, fun i a d s t h ht j hj => ?between,
    fun s hfull => ⟨exec_ovd_rgba_of_opaque (d := .gray) rfl rfl hfull,
      exec_ovd_rgba_of_opaque (d := .rgb) rfl rfl hfull, exec_ovd_rgba_of_opaque (d := .rgba) rfl rfl hfull⟩⟩
  case idempotent => exact (execEach_ovd_opaque_twice h ha s).trans (exec_ovd_opaque h ha s).symm
  case blendsTwice =>
    simp only [List.forall_mem_cons, List.not_mem_nil, false_imp_iff, implies_true, and_true]
    exact ⟨⟨halfWhiteOverBlack, execEach_ovd_twice_ne (d := .gray) rfl (by decide)⟩,
      ⟨halfWhiteOverBlack, execEach_ovd_twice_ne (d := .rgb) rfl (by decide)⟩,
      ⟨halfWhiteOverBlack, execEach_ovd_twice_ne (d := .rgba) rfl (by decide)⟩⟩
  case fullWeight =>
    refine (exec_ovd (a := .rgba) (d := .rgba) rfl s).trans ?_
    rw [overdraw_rgba_rgba_of_opaque hfull]
    rfl
  case between =>
    cases (exec_ovd h s).symm.trans ht
    exact channel_overdraw_between a s.S s.D hj

/-- Settles O44: converting first always leaves the converted source, which the direct cell leaves for an opaque source
and, for an RGBA8 one, where its blends reach it. -/
theorem whereDirectAndConvertFirstAgree : Obligations.WhereDirectAndConvertFirstAgree := by
  refine ⟨fun a d i is s ha had hi his => ?_, fun d i is s hd hi his => ?_, fun s hS hD => ?_, fun s hS hD => ?_⟩
  · exact ⟨_, _, exec_ovd_opaque (form_of_toInstr hi) ha s, execEach_cvtovd had his s, rfl⟩
  · exact ⟨_, _, exec_ovd (form_of_toInstr hi) s, execEach_cvtovd hd.symm his s,
      overdraw_rgba_eq_colorConvert_iff hd s.S s.D⟩
  · refine ⟨_, _, exec_ovd (a := .rgba) (d := .rgb) rfl s,
      execEach_cvt_ovd (a := .rgba) (d := .rgb) rfl rfl (.inr (by decide)) s, ?_, ?_⟩
    · rw [hS, hD]; rfl
    · rw [hS]; rfl
  · refine ⟨_, _, exec_ovd (a := .rgba) (d := .gray) rfl s,
      execEach_cvt_ovd (a := .rgba) (d := .gray) rfl rfl (.inr (by decide)) s, ?_, ?_⟩
    · rw [hS, hD]; rfl
    · rw [hS]; rfl

end Sys2Proof.Machine

/-! PROOFS. The exceptions of 60_exceptions.md: the illegal command, the sticky flag, and that a legal instruction
completes and raises nothing (R120, R121). -/

namespace Sys2Proof.Machine

/-! ### Legal instructions (R121) -/

/-- None of the four shapes of an instruction's effect writes ST. -/
theorem effect_keeps_ST {s t : State} (e : Effect s t) : t.ST = s.ST := by
  cases e with
  | none => rfl
  | reg r v => exact writeReg_ST r v s
  | raw r ty => exact writeRaw_ST _ _ s
  | desc ty => exact writeDesc_ST _ s

/-- Settles O11: every instruction has an effect of one of the four shapes. -/
theorem legalInstructionsCompleteAndRaiseNothing : Obligations.LegalInstructionsCompleteAndRaiseNothing := by
  intro i s
  obtain ⟨t, ht, heffect⟩ := exec_effect i s
  exact ⟨t, ht, effect_keeps_ST heffect⟩

/-! ### The illegal command (R120) -/

@[simp] theorem raiseIllegal_ill (s : State) : (raiseIllegal s).ill = true :=
  (ill_iff_ST _).mpr (raiseIllegal_ST s)

/-- Raising a flag that is set already changes nothing. -/
theorem raiseIllegal_of_ill {s : State} (h : s.ill = true) : raiseIllegal s = s := by
  have hST : s.ST = 1#1 := (ill_iff_ST s).mp h
  rw [raiseIllegal, State.setIll, ← hST]

/-- An illegal word raises the flag, whatever made it illegal. -/
theorem presentWord_of_illegal {W : CommandWord} (h : legalWord W = false) (s : State) :
    presentWord W s = .next (raiseIllegal s) := by
  cases hdecode : decode W with
  | ok i => simp [legalWord, hdecode] at h
  | error c => exact presentWord_of_error hdecode s

/-- The flag is sticky: a legal word leaves ST alone, an illegal one sets the flag. -/
theorem presentWord_keeps_ill {W : CommandWord} {s t : State} (hill : s.ill = true) (h : presentWord W s = .next t) :
    t.ill = true := by
  cases hdecode : decode W with
  | ok i =>
    rw [presentWord_of_decode hdecode] at h
    have hST : t.ST = s.ST := effect_keeps_ST (effect_of_exec h)
    rwa [State.ill, hST]
  | error c =>
    rw [presentWord_of_error hdecode] at h
    cases h
    exact raiseIllegal_ill s

/-- Settles O10: the step presents the waiting word, which raises the flag if it is illegal under any immediate, and
keeps it in every case. -/
theorem illegalCommandSetsOnlyTheStickyFlag : Obligations.IllegalCommandSetsOnlyTheStickyFlag := by
  refine ⟨fun s W rest c hpending hdecode => ?_, fun H x y s hx => ?_, fun s t W rest hpending hill hstep => ?_⟩
  · have hstep := (step_command hpending).trans (presentWord_of_error hdecode _)
    exact ⟨_, hstep, raiseIllegal_ill _, rfl, rfl, rfl, rfl, rfl, rfl, fun hill => raiseIllegal_of_ill hill⟩
  · have hy : legalWord (H ++ y) = false := (legalWord_congr_imm H y x).trans hx
    rw [presentWord_of_illegal hx, presentWord_of_illegal hy]
  · have hword := (step_command hpending).symm.trans hstep
    exact presentWord_keeps_ill (s := { s with pending := rest }) hill hword

end Sys2Proof.Machine

/-! PROOFS. Reset and the end of a run of 70_reset_and_hazards.md: what the reset event erases, that every run ends, and
when it has gone wrong (R140, R150, R151). -/

namespace Sys2Proof.Machine

/-! ### The reset event (R140) -/

/-- The state after a reset event is the reset state, with the host's later events still to come. -/
theorem step_reset_state {s : State} {lost : Option CommandWord} {rest : List HostEvent}
    (h : s.pending = .reset lost :: rest) : step s = .next { State.reset with pending := rest } :=
  step_reset h

/-- A command takes its whole effect before the reset behind it, which erases that effect. -/
theorem run_command_reset {s : State} {W : CommandWord} {lost : Option CommandWord} {rest : List HostEvent}
    (h : s.pending = .command W :: .reset lost :: rest) :
    Host.Core.run Sys2Proof.core 2 s = .next { State.reset with pending := rest } := by
  obtain ⟨u, hu⟩ := presentWord_next W s
  have hcommand : step s = .next { u with pending := .reset lost :: rest } :=
    (step_command h).trans (presentWord_pending (.reset lost :: rest) hu)
  exact (run_succ hcommand).trans (run_succ (step_reset_state rfl))

/-- A step that clears the flag took a reset: an idle step and a command keep a flag that is set. -/
theorem reset_of_step_clears_ill {s t : State} (hs : s.ill = true) (hstep : step s = .next t) (ht : t.ill = false) :
    ∃ lost rest, s.pending = .reset lost :: rest := by
  cases hpending : s.pending with
  | nil =>
    have hst : s = t := Host.Outcome.next.inj ((step_idle hpending).symm.trans hstep)
    simp [← hst, hs] at ht
  | cons e rest =>
    cases e with
    | reset lost => exact ⟨lost, rest, rfl⟩
    | command W =>
      have hkept : t.ill = true :=
        presentWord_keeps_ill (s := { s with pending := rest }) hs ((step_command hpending).symm.trans hstep)
      simp [hkept] at ht

/-- Settles O2: the reset event leaves nothing of the state before it, so nothing of what a command wrote there; idle
steps and commands do not clear the flag. -/
theorem resetEventClearsEveryRegister : Obligations.ResetEventClearsEveryRegister := by
  refine ⟨fun s lost rest hpending => ?_, fun s W lost rest hpending => ?_, fun s t => reset_of_step_clears_ill⟩
  · exact ⟨_, step_reset_state hpending, rfl, rfl, rfl, rfl, rfl, rfl⟩
  · exact (run_command_reset hpending).trans (step_reset_state rfl).symm

/-! ### Every run ends (R151) -/

/-- A run of any length answers a next state. -/
theorem run_next (n : Nat) (s : State) : ∃ t : State, Host.Core.run Sys2Proof.core n s = .next t := by
  induction n generalizing s with
  | zero => exact ⟨s, run_zero s⟩
  | succ n ih =>
    obtain ⟨u, hu⟩ := step_next s
    obtain ⟨t, ht⟩ := ih u
    exact ⟨t, (run_succ hu).trans ht⟩

/-- Settles O12: a step answers a next state, the only one since step is a function; so does a run, by induction. -/
theorem everyStepHasANextState : Obligations.EveryStepHasANextState := by
  refine ⟨fun s => ?_, run_next⟩
  obtain ⟨t, ht⟩ := step_next s
  exact ⟨t, ht, fun u hu => Host.Outcome.next.inj (hu.symm.trans ht)⟩

/-! ### When a run has gone wrong (R150) -/

/-- After a command word the flag is set exactly if it was before or the word is illegal. -/
theorem ill_presentWord {W : CommandWord} {s t : State} (h : presentWord W s = .next t) :
    t.ill = true ↔ s.ill = true ∨ legalWord W = false := by
  cases hdecode : decode W with
  | ok i =>
    rw [presentWord_of_decode hdecode] at h
    have hST : t.ST = s.ST := effect_keeps_ST (effect_of_exec h)
    simp [State.ill, hST, legalWord, hdecode]
  | error c =>
    rw [presentWord_of_error hdecode] at h
    cases h
    simp [legalWord, hdecode]

/-- A run of command words uses them up, and ends with the flag set exactly if it was at the start or one of them is
illegal. -/
theorem ill_run_presentAll (ws : List CommandWord) (s : State) :
    ∃ t : State, Host.Core.run Sys2Proof.core ws.length (presentAll ws s) = .next t ∧ t.pending = [] ∧
      (t.ill = true ↔ s.ill = true ∨ ∃ W ∈ ws, legalWord W = false) := by
  induction ws generalizing s with
  | nil => exact ⟨presentAll [] s, run_zero _, rfl, by simp [presentAll, State.ill]⟩
  | cons W ws ih =>
    obtain ⟨u, hu⟩ := presentWord_next W s
    obtain ⟨t, hrun, hpending, hill⟩ := ih u
    refine ⟨t, (run_presentAll_cons ws hu).trans hrun, hpending, ?_⟩
    rw [hill, ill_presentWord hu, List.exists_mem_cons_iff, or_assoc]

/-- Settles O13: the flag at the end of a run, for a start state whose flag is clear. -/
theorem runGoesWrongExactlyOnAnIllegalWord : Obligations.RunGoesWrongExactlyOnAnIllegalWord := by
  intro ws s hs
  obtain ⟨t, hrun, hpending, hill⟩ := ill_run_presentAll ws s
  exact ⟨t, hrun, hpending, by simpa [goneWrong, hs] using hill⟩

end Sys2Proof.Machine

/-! PROOFS. Every step takes one of the host's events (R44, R131, R140). -/

namespace Sys2Proof.Machine

/-- No instruction takes an event: the input is outside every row of R35. -/
theorem exec_keeps_pending {i : Instr} {s t : State} (h : exec i s = .next t) : t.pending = s.pending := by
  obtain ⟨-, -, -, -, -, hpending⟩ := instructionsWriteOnlyTheirRow i s t h
  exact hpending

/-- Settles O9: by what a step can do; each kind of event is taken off the list before its effect, which leaves the
rest. -/
theorem everyStepTakesOneEvent : Obligations.EveryStepTakesOneEvent := by
  intro s t hstep
  obtain ⟨hpending, rfl⟩ | ⟨W, rest, i, hpending, -, hexec⟩ | ⟨W, rest, c, hpending, -, rfl⟩ |
    ⟨lost, rest, hpending, rfl⟩ := step_cases hstep
  case inl => rw [hpending, List.tail_nil]
  case inr.inl => rw [hpending, List.tail_cons, exec_keeps_pending hexec]
  case inr.inr.inl => rw [hpending, List.tail_cons, raiseIllegal_pending]
  case inr.inr.inr => rw [hpending, List.tail_cons, applyReset_pending]

end Sys2Proof.Machine

/-! PROOFS. The opaque cells of 43_overdraw.md whose values the spec inferred or chose: a Grayscale8 source on a colour
destination, and an RGB8 source on a Grayscale8 one (R105, R107, R108; log entry 7). -/

namespace Sys2Proof.Machine

theorem colorConvert_gray_rgb_toNat (S : Word) : (colorConvert .gray .rgb S).toNat = channel S 0 * 0x010101 := by
  rw [← lane_toNat]
  exact ofRgb_grayToRgb_toNat (asGray S)

theorem colorConvert_gray_rgba_toNat (S : Word) :
    (colorConvert .gray .rgba S).toNat = channel S 0 * 0x010101 + 255 * 2 ^ 24 := by
  rw [← lane_toNat]
  exact ofRgba_grayToRgba_toNat (asGray S)

/-- Settles O37: both cells leave the converted source in D, as CVT of S and the overdraw within the type do. -/
theorem graySourceIsReplicatedOntoColour : Obligations.GraySourceIsReplicatedOntoColour := by
  refine ⟨encodedAs_of_header ⟨rfl, rfl⟩, encodedAs_of_header ⟨rfl, rfl⟩, fun s => ?rgb, fun s => ?rgba⟩
  case rgb =>
    exact ⟨_, exec_ovd_opaque (a := .gray) (d := .rgb) rfl (by decide) s, colorConvert_gray_rgb_toNat s.S,
      execEach_cvt_ovd rfl rfl (.inl (by decide)) s⟩
  case rgba =>
    exact ⟨_, exec_ovd_opaque (a := .gray) (d := .rgba) rfl (by decide) s, colorConvert_gray_rgba_toNat s.S,
      exec_cvt_colorConvert (r := .S) rfl s, execEach_cvt_ovd rfl rfl (.inl (by decide)) s⟩

/-- Settles O38: the RGB8 source converted to Grayscale8, which is its luminance, once or twice. -/
theorem rgbSourceWritesItsLuminanceToGray : Obligations.RgbSourceWritesItsLuminanceToGray :=
  ⟨encodedAs_of_header ⟨rfl, rfl⟩, fun s => ⟨_, exec_ovd_opaque (a := .rgb) (d := .gray) rfl (by decide) s,
    ofGray_rgbToGray_toNat s.S, execEach_ovd_opaque_twice rfl (by decide) s⟩⟩

end Sys2Proof.Machine

/-! PROOFS. CONST of 40_moves_and_constants.md: the headers of its instructions, the values loaded, and TRANSPARENT as a
source (R71, R73 to R79; log entry 5). -/

namespace Sys2Proof.Machine

/-- The header of a CONST, by R51's formula for the operation group 6. -/
theorem encodedAs_const {i : Instr} {r : PixReg} {t : PixelType} {k : ConstName} {H : Nat} (h : i.form = .const r t k)
    (hH : H = 0xC0 + 8 * (typeCode t).toNat + 2 * (constCode k).toNat + r.index) : EncodedAs H i := by
  refine encodedAs_of_header ⟨by rw [h]; rfl, ?_⟩
  rw [h, hH]
  cases r <;> cases t <;> cases k <;> rfl

/-- Settles O23: the entries of the constant store, and the headers by the formula. -/
theorem constLoadsBlackAndWhite : Obligations.ConstLoadsBlackAndWhite := fun _ _ =>
  ⟨rfl, rfl, rfl, rfl, rfl, rfl,
    encodedAs_const (t := .gray) (k := .black) rfl rfl, encodedAs_const (t := .gray) (k := .white) rfl rfl,
    encodedAs_const (t := .rgb) (k := .black) rfl rfl, encodedAs_const (t := .rgb) (k := .white) rfl rfl,
    encodedAs_const (t := .rgba) (k := .black) rfl rfl, encodedAs_const (t := .rgba) (k := .white) rfl rfl⟩

/-! ### TRANSPARENT (R79) -/

theorem exec_constRgbaTransparent (r : PixReg) (s : State) :
    exec (.constRgbaTransparent r) s = .next (writeReg r 0x00000000#32 s) := rfl

/-- Zero weight leaves the channel of a Grayscale8 destination, and clears the lanes above it (R103 (b)). -/
theorem overdraw_gray_of_zero_weight {S : Word} (h : channel S 3 = 0) (D : Word) :
    overdraw .rgba .gray S D = D &&& 0x000000FF#32 := by
  have hw : lane S 3 = 0#8 := BitVec.eq_of_toNat_eq ((lane_toNat S 3).trans h)
  rw [and_mask_gray]
  simp only [overdraw, inkOf, hw, blend8_zero_weight]

/-- TRANSPARENT loaded into S, then an overdraw from S. -/
theorem execEach_transparent_ovd {i : Instr} {d : PixelType} (h : i.form = .ovd .rgba d) (s : State) :
    execEach [.constRgbaTransparent .S, i] s =
      .next (writeReg .D (overdraw .rgba d 0#32 s.D) (writeReg .S 0#32 s)) :=
  execEach_pair (exec_constRgbaTransparent .S s) (exec_ovd h _)

/-- Settles O24: the store's entry and its header; the four headers are in R61's row for CONST; as a source TRANSPARENT
has weight zero. -/
theorem constLoadsTransparent : Obligations.ConstLoadsTransparent := by
  obtain ⟨hcause, -, -⟩ := illegalHeadersByCause
  refine ⟨fun r s => ⟨exec_constRgbaTransparent r s, encodedAs_const (t := .rgba) (k := .transparent) rfl rfl⟩,
    fun H hH x => ?illegal, fun s => ⟨?gray, ?rgb, ?rgba⟩⟩
  case illegal =>
    have hlt : H < 256 := by
      revert H
      decide
    obtain ⟨-, -, -, -, -, -, hconst, -⟩ := hcause H hlt
    exact legalWord_of_decodeHeader_error (hconst.mpr (.inr (.inl hH))) x
  case gray =>
    rw [execEach_transparent_ovd rfl, overdraw_gray_of_zero_weight rfl]
    rfl
  case rgb | rgba =>
    rw [execEach_transparent_ovd rfl, overdraw_of_zero_weight rfl (by decide)]
    rfl

end Sys2Proof.Machine
